-- ==== Sys2Proof/Word.lean ====
section
/-! DEFINITION. The word type: the widths of spec/00_scope.md R5 and the names every file uses for them. -/

namespace Sys2Proof

/-- `W`, the width in bits of a data word, of `arg`, of `acc` and of `pc` (00_scope.md R5: 32, the spec's
decision D1). UNVERIFIED: the source gives no number; unsafe for an implementation of another width
(notes/assumptions/1.md). -/
abbrev W : Nat := 32

/-- `OPW`, the width in bits of a stored `op_byte` (00_scope.md R5). -/
abbrev OPW : Nat := 8

/-- A word: `W` bits, read as a two's-complement integer unless a rule says otherwise (00_scope.md R8). -/
abbrev Word := BitVec W

/-- A stored `op_byte` (10_state.md R31). -/
abbrev Byte := BitVec OPW

end Sys2Proof
end

