-- ==== Sys2Proof/Config.lean ====
section
/-! DEFINITION. What the spec leaves to the implementation: the capacity `MEM_SIZE` (spec/00_scope.md R5). -/

namespace Sys2Proof.Config

/-- How far the implementation's capacity lies above the spec's lower bound 16. An opaque constant: nothing can
evaluate it, so a claim holds for every capacity R5 allows. DESIGN CHOICE of form, safe (notes/assumptions/2.md). -/
opaque memSizeAbove16 : Fin (2 ^ (W - 1) - 16 + 1)

/-- `MEM_SIZE`, the number of words of Memory and of entries of the Code Store; the spec leaves it OPEN with
`16 <= MEM_SIZE <= 2^(W-1)` (00_scope.md R5, 92_eei_decisions.md D2). -/
def memSize : Nat := memSizeAbove16.val + 16

/-- The constant that splits FOR's count word; fixed by the source (00_scope.md R5, `FOR_SPLIT`). -/
abbrev forSplit : Int := 4096

end Sys2Proof.Config
end

