-- ==== Sys2Proof/Syntax.lean ====
section
/-! DEFINITION. The instruction set as data: one constructor of `Instr` per row of spec/opcode_table.json. -/

namespace Sys2Proof

/-- The addressing-mode field of an op_byte (30_encoding.md R60). What a mode means depends on the opcode. -/
inductive Mode where
  | direct
  | immediate
  | indirect
  | mode3
  deriving DecidableEq, Repr

/-- An instruction word after `unpack`: the opcode as a constructor, the mode bits, and `arg` whole
(30_encoding.md R66, R71). Every mode is carried, legal or not: the handler checks it
(40_step_and_system.md R90). -/
inductive Instr where
  /-- 0x0 NOP, 40_step_and_system.md R96. -/
  | nop (mode : Mode) (arg : Word)
  /-- 0x1 LOD, 41_load_store.md R105. -/
  | lod (mode : Mode) (arg : Word)
  /-- 0x2 STO, 41_load_store.md R107. -/
  | sto (mode : Mode) (arg : Word)
  /-- 0x3 JUMP, 42_jumps.md R115. -/
  | jump (mode : Mode) (arg : Word)
  /-- 0x4 JMPZ, 42_jumps.md R117. -/
  | jmpz (mode : Mode) (arg : Word)
  /-- 0x5 ADD, 43_arithmetic.md R125. -/
  | add (mode : Mode) (arg : Word)
  /-- 0x6 SUB, 43_arithmetic.md R126. -/
  | sub (mode : Mode) (arg : Word)
  /-- 0x7 MUL, 43_arithmetic.md R127. -/
  | mul (mode : Mode) (arg : Word)
  /-- 0x8 DIV, 43_arithmetic.md R128. -/
  | div (mode : Mode) (arg : Word)
  /-- 0x9 AND (logical, not bitwise), 44_logic_compare.md R140. -/
  | logAnd (mode : Mode) (arg : Word)
  /-- 0xA NOT (logical, not bitwise), 44_logic_compare.md R141. -/
  | logNot (mode : Mode) (arg : Word)
  /-- 0xB CMPL, 44_logic_compare.md R142. -/
  | cmpl (mode : Mode) (arg : Word)
  /-- 0xC CMPZ, 44_logic_compare.md R143. -/
  | cmpz (mode : Mode) (arg : Word)
  /-- 0xD FOR, 45_for.md R150. -/
  | forLoop (mode : Mode) (arg : Word)
  /-- 0xE, the opcode with no handler, 40_step_and_system.md R100. -/
  | unused0E (mode : Mode) (arg : Word)
  /-- 0xF HALT, 40_step_and_system.md R98. -/
  | halt (mode : Mode) (arg : Word)
  deriving DecidableEq, Repr

/-- The mode field of an instruction. -/
def Instr.mode : Instr → Mode
  | .nop m _ | .lod m _ | .sto m _ | .jump m _ | .jmpz m _ | .add m _ | .sub m _ | .mul m _
  | .div m _ | .logAnd m _ | .logNot m _ | .cmpl m _ | .cmpz m _ | .forLoop m _
  | .unused0E m _ | .halt m _ => m

/-- The `arg` field of an instruction. -/
def Instr.arg : Instr → Word
  | .nop _ a | .lod _ a | .sto _ a | .jump _ a | .jmpz _ a | .add _ a | .sub _ a | .mul _ a
  | .div _ a | .logAnd _ a | .logNot _ a | .cmpl _ a | .cmpz _ a | .forLoop _ a
  | .unused0E _ a | .halt _ a => a

end Sys2Proof
end

