-- ==== Sys2Proof/WellFormed.lean ====
section
/-! DEFINITION. Which instructions are legal: the mode legality matrix of spec/30_encoding.md R67. -/

namespace Sys2Proof

/-- The legality matrix of 30_encoding.md R67: the modes with which an instruction executes. The row 0xE has
none. An instruction outside the matrix still decodes; its handler raises the condition. -/
def Instr.legalModes : Instr → List Mode
  | .nop _ _      => [.direct]
  | .lod _ _      => [.direct, .immediate, .indirect]
  | .sto _ _      => [.direct, .indirect]
  | .jump _ _     => [.direct, .immediate, .indirect, .mode3]
  | .jmpz _ _     => [.direct, .immediate, .indirect, .mode3]
  | .add _ _      => [.direct, .immediate, .indirect]
  | .sub _ _      => [.direct, .immediate, .indirect]
  | .mul _ _      => [.direct, .immediate, .indirect]
  | .div _ _      => [.direct, .immediate, .indirect]
  | .logAnd _ _   => [.direct, .immediate]
  | .logNot _ _   => [.direct]
  | .cmpl _ _     => [.direct]
  | .cmpz _ _     => [.direct]
  | .forLoop _ _  => [.direct, .immediate]
  | .unused0E _ _ => []
  | .halt _ _     => [.direct]

/-- An instruction is well-formed when its mode is legal for it (30_encoding.md R67). There is no other check:
all `2^W` values of `arg` are accepted (R71). -/
def Instr.wellFormed (i : Instr) : Bool := decide (i.mode ∈ i.legalModes)

end Sys2Proof
end

