-- ==== Sys2Proof/Decode.lean ====
section
/-! DEFINITION. The instruction codec of spec/30_encoding.md: parity, `unpack`, `pack`, the opcode map, the
decoder and the encoder. -/

namespace Sys2Proof

/-- The two mode bits `op_byte[2:1]` of a mode (30_encoding.md R60). -/
def Mode.bits : Mode → BitVec 2
  | .direct    => 0
  | .immediate => 1
  | .indirect  => 2
  | .mode3     => 3

/-- The mode two bits stand for; all four values do (30_encoding.md R60). -/
def Mode.ofBits (b : BitVec 2) : Mode :=
  match b.toNat with
  | 0 => .direct
  | 1 => .immediate
  | 2 => .indirect
  | _ => .mode3

/-- `popcount(v)`: the number of bits equal to 1 (00_scope.md R12, 30_encoding.md R62). -/
def popcount {n : Nat} (v : BitVec n) : Nat := (List.range n).countP v.getLsbD

/-- `check_parity`: succeeds when the population count of all 8 stored bits is even (30_encoding.md R65). -/
def checkParity (op : Byte) : Bool := popcount op % 2 == 0

/-- `pack(opcode, mode)`: `8*opcode + 2*mode` with bit 0 set to make the population count even
(30_encoding.md R63). -/
def pack (opcode : BitVec 4) (mode : Mode) : Byte :=
  let b : Byte := BitVec.ofNat OPW (8 * opcode.toNat + 2 * mode.bits.toNat)
  b + BitVec.ofNat OPW (popcount b % 2)

/-- `unpack(op_byte)`: `opcode = op_byte div 8`, five bits since nothing masks bit 7, and
`mode = op_byte[2:1]` (30_encoding.md R64, R61). -/
def unpack (op : Byte) : BitVec 5 × Mode :=
  (BitVec.ofNat 5 (op.toNat / 8), Mode.ofBits (op.extractLsb' 1 2))

/-- Why a fetched word is no instruction of the opcode table. -/
inductive Reject where
  /-- Odd parity (30_encoding.md R65): the step raises CorruptedInstruction. -/
  | corrupted
  /-- An opcode 16 .. 31, bit 7 of `op_byte` set (30_encoding.md R61): the step raises UndefinedOpcode. -/
  | noHandler (opcode : BitVec 5)
  deriving DecidableEq, Repr

/-- The opcode map of 30_encoding.md R66, as dispatch uses it (40_step_and_system.md R89). -/
def Instr.ofFields (opcode : BitVec 5) (m : Mode) (arg : Word) : Except Reject Instr :=
  match opcode.toNat with
  | 0  => .ok (.nop m arg)
  | 1  => .ok (.lod m arg)
  | 2  => .ok (.sto m arg)
  | 3  => .ok (.jump m arg)
  | 4  => .ok (.jmpz m arg)
  | 5  => .ok (.add m arg)
  | 6  => .ok (.sub m arg)
  | 7  => .ok (.mul m arg)
  | 8  => .ok (.div m arg)
  | 9  => .ok (.logAnd m arg)
  | 10 => .ok (.logNot m arg)
  | 11 => .ok (.cmpl m arg)
  | 12 => .ok (.cmpz m arg)
  | 13 => .ok (.forLoop m arg)
  | 14 => .ok (.unused0E m arg)
  | 15 => .ok (.halt m arg)
  | _  => .error (.noHandler opcode)

/-- Decoding a fetched instruction word: parity first, then `unpack`, then the opcode map (30_encoding.md R69
steps 1 and 2). The mode is not judged here (40_step_and_system.md R90). -/
def decode (op : Byte) (arg : Word) : Except Reject Instr :=
  if checkParity op then
    Instr.ofFields (unpack op).1 (unpack op).2 arg
  else
    .error .corrupted

/-- The opcode value of an instruction (30_encoding.md R66). -/
def Instr.opcode : Instr → BitVec 4
  | .nop _ _      => 0x0
  | .lod _ _      => 0x1
  | .sto _ _      => 0x2
  | .jump _ _     => 0x3
  | .jmpz _ _     => 0x4
  | .add _ _      => 0x5
  | .sub _ _      => 0x6
  | .mul _ _      => 0x7
  | .div _ _      => 0x8
  | .logAnd _ _   => 0x9
  | .logNot _ _   => 0xA
  | .cmpl _ _     => 0xB
  | .cmpz _ _     => 0xC
  | .forLoop _ _  => 0xD
  | .unused0E _ _ => 0xE
  | .halt _ _     => 0xF

/-- The instruction word of an instruction: `pack` of its opcode and mode, and `arg` (30_encoding.md R60, R63). -/
def encode (i : Instr) : Byte × Word := (pack i.opcode i.mode, i.arg)

/-- The two fields of an instruction word given as one number, numbered as spec/opcode_table.json numbers the
bits: `op_byte` in bits 7..0, `arg` in bits 39..8, every bit at or above `nbits` zero. The two are separate
integers with no byte order (20_memory.md R46). -/
def tableWord (nbits w : Nat) : Byte × Word :=
  let v := w % 2 ^ nbits
  (BitVec.ofNat OPW v, BitVec.ofNat W (v / 2 ^ OPW))

/-- The instruction the decoder reads from a table word; `none` where it refuses (odd parity, or bit 7 set). -/
def decodeTableWord (nbits w : Nat) : Option Instr :=
  match decode (tableWord nbits w).1 (tableWord nbits w).2 with
  | .ok i    => some i
  | .error _ => none

end Sys2Proof
end

