-- ==== Sys2Proof/Machine/State.lean ====
section
/-! DEFINITION. The machine's state (spec/10_state.md), its reset value, and the reasons a step could stop. -/

namespace Sys2Proof.Machine

/-- A store of `MEM_SIZE` units of `w` bits as plain data: (index, value) pairs, indices strictly rising, no
value equal to what an unlisted index reads as, which is 0 (10_state.md R30, R31, R35). The unit is the whole
word or entry, since no unit has parts that can be addressed (20_memory.md R46; notes/assumptions/3.md). -/
abbrev Memory (w : Nat) := List (Nat × BitVec w)

/-- The canonical form of a store: indices strictly rising and no listed value 0. -/
def Memory.wf {w : Nat} : Memory w → Bool
  | []                     => true
  | [(_, v)]               => v != 0
  | (a, v) :: (b, u) :: m  => v != 0 && decide (a < b) && Memory.wf ((b, u) :: m)

/-- Every listed index lies in `0 .. MEM_SIZE-1` (20_memory.md R40). -/
def Memory.bounded {w : Nat} (m : Memory w) : Bool := m.all fun c => decide (c.1 < Config.memSize)

/-- `fault_info`, three fields of `W`, 5 and 2 bits (60_exceptions.md R171). -/
structure FaultInfo where
  index  : Word
  opcode : BitVec 5
  mode   : BitVec 2
  deriving DecidableEq, Repr

/-- One frame of `LoopStack`: a FOR in progress (10_state.md R33). -/
structure Frame where
  /-- `body_start`, the index after the FOR. -/
  bodyStart : Word
  /-- `inner`, Steps per pass. -/
  inner     : Nat
  /-- `j_left`, nested Steps still to run in the current pass. -/
  jLeft     : Nat
  /-- `o_left`, passes still to finish, the current one included. -/
  oLeft     : Nat
  deriving DecidableEq, Repr

/-- All state of the block (10_state.md, section 1). -/
structure State where
  /-- The accumulator (R21). -/
  acc          : Word
  /-- The program counter, an index into the Code Store; it may hold an invalid value (R22). -/
  pc           : Word
  /-- The running flag (R26). -/
  running      : Bool
  /-- `fault_cause`, the code of the most recent fault (R28; codes in 60_exceptions.md R170). -/
  faultCause   : BitVec 3
  /-- `fault_info`, what that fault recorded (R28; 60_exceptions.md R171). -/
  faultInfo    : FaultInfo
  /-- `Mem`, the data Memory (R30). -/
  mem          : Memory W
  /-- `CodeOp`, the op_byte column of the Code Store (R31). -/
  codeOp       : Memory OPW
  /-- `CodeArg`, the arg column of the Code Store (R31). -/
  codeArg      : Memory W
  /-- `changed_index`, the most recently written data index (R30). -/
  changedIndex : Word
  /-- `LoopStack`, the innermost FOR first (R33). -/
  loopStack    : List Frame
  deriving DecidableEq, Repr

/-- The five conditions of 60_exceptions.md R170, each with what raising it names (R171). -/
inductive Condition where
  | corruptedInstruction
  | illegalAddressingMode (opcode : BitVec 4) (mode : Mode)
  | divideByZero (mode : Mode)
  | undefinedOpcode (opcode : BitVec 5)
  | outOfRangeAddress (index : Word)
  deriving DecidableEq, Repr

/-- Reasons a step could stop with a fault outcome: none. The spec describes what each of its five conditions
does (60_exceptions.md R180), so the model takes them as next states (notes/assumptions/5.md) and no behaviour
is left that would need a fault. Nobody raises one; safe. -/
inductive Fault where
  deriving DecidableEq, Repr

/-- Reasons a step could refuse. -/
inductive Refusal where
  /-- An instruction with no meaning yet, raised only by an arm of `exec`; safe. No arm raises it now. -/
  | notModelled (mnemonic : String)
  deriving DecidableEq, Repr

/-- The state after reset (10_state.md R35, 70_reset_and_hazards.md R195): every value is the spec's. -/
def State.reset : State where
  acc          := 0
  pc           := 0
  running      := false
  faultCause   := 0
  faultInfo    := ⟨0, 0, 0⟩
  mem          := []
  codeOp       := []
  codeArg      := []
  changedIndex := -1
  loopStack    := []

end Sys2Proof.Machine
end

