-- ==== Sys2Proof/Machine/Ops.lean ====
section
/-! DEFINITION. The named operations over memory and registers, and the fault action, which is the machine's
only exception entry (spec/60_exceptions.md R180). There is no return from a fault (R182). -/

namespace Sys2Proof

/-- `wrap(v)`: the word congruent to `v` modulo `2^W` (00_scope.md R8). -/
def wrap (v : Int) : Word := BitVec.ofInt W v

/-- `sext_N(v)`: the signed reading of an `N`-bit field (00_scope.md R8). No rule needs it beyond words. -/
def sext {n : Nat} (v : BitVec n) : Int := v.toInt

/-- `zext_N(v)`: the unsigned reading of an `N`-bit field (00_scope.md R8). -/
def zext {n : Nat} (v : BitVec n) : Int := v.toNat

namespace Machine

/-- Reading one unit of a store; an unlisted index reads 0. -/
def Memory.read {w : Nat} : Memory w → Nat → BitVec w
  | [], _          => 0
  | (k, v) :: m, a => if k = a then v else Memory.read m a

/-- Writing one unit of a store, keeping the canonical form: a 0 is not listed. -/
def Memory.write {w : Nat} : Memory w → Nat → BitVec w → Memory w
  | [], a, v => if v = 0 then [] else [(a, v)]
  | (k, u) :: m, a, v =>
    if k < a then (k, u) :: Memory.write m a v
    else if k = a then (if v = 0 then m else (a, v) :: m)
    else (if v = 0 then (k, u) :: m else (a, v) :: (k, u) :: m)

/-- The range check of every access: `0 <= a < MEM_SIZE`, the address read as a signed integer
(20_memory.md R41 to R44). -/
def inRange (a : Word) : Bool := decide (0 ≤ a.toInt) && decide (a.toNat < Config.memSize)

/-- `MemRead(a, 1)` (20_memory.md R42). -/
def memRead (a : Word) (s : State) : Except Condition Word :=
  if inRange a then .ok (s.mem.read a.toNat) else .error (.outOfRangeAddress a)

/-- The data write itself, at an index in range: the word and `changed_index` (20_memory.md R43). -/
def State.storeWord (s : State) (a v : Word) : State :=
  { s with mem := s.mem.write a.toNat v, changedIndex := a }

/-- `MemWrite(a, 1, v)` (20_memory.md R43). -/
def memWrite (a v : Word) (s : State) : Except Condition State :=
  if inRange a then .ok (s.storeWord a v) else .error (.outOfRangeAddress a)

/-- `CodeRead(a)` (20_memory.md R44). -/
def codeRead (a : Word) (s : State) : Except Condition (Byte × Word) :=
  if inRange a then .ok (s.codeOp.read a.toNat, s.codeArg.read a.toNat)
  else .error (.outOfRangeAddress a)

/-- `acc <- v`. -/
def State.setAcc (s : State) (v : Word) : State := { s with acc := v }

/-- `pc <- v`. -/
def State.setPc (s : State) (v : Word) : State := { s with pc := v }

/-- The generic sequencing rule `pc <- wrap(pc + 1)` (40_step_and_system.md R92). -/
def State.advance (s : State) : State := s.setPc (wrap (s.pc.toInt + 1))

/-- What HALT does: `running <- 0`, `LoopStack <- empty` (40_step_and_system.md R98). -/
def State.haltEngine (s : State) : State := { s with running := false, loopStack := [] }

/-- The code of a condition that `fault_cause` holds (60_exceptions.md R170). -/
def Condition.code : Condition → BitVec 3
  | .corruptedInstruction      => 1
  | .illegalAddressingMode _ _ => 2
  | .divideByZero _            => 3
  | .undefinedOpcode _         => 4
  | .outOfRangeAddress _       => 5

/-- What a condition raised at `pc` records in `fault_info` (60_exceptions.md R171). -/
def Condition.info (c : Condition) (pc : Word) : FaultInfo :=
  match c with
  | .corruptedInstruction       => ⟨pc, 0, 0⟩
  | .illegalAddressingMode oc m => ⟨pc, oc.setWidth 5, m.bits⟩
  | .divideByZero m             => ⟨pc, 0x8, m.bits⟩
  | .undefinedOpcode oc         => ⟨pc, oc, 0⟩
  | .outOfRangeAddress i        => ⟨i, 0, 0⟩

/-- The fault action, `on raise C(info)` (60_exceptions.md R180): the fault registers are written, the engine
halts, every FOR in progress is abandoned; `pc` is not redirected and nothing is saved. -/
def State.takeFault (s : State) (c : Condition) : State :=
  { s with
    faultCause := c.code
    faultInfo  := c.info s.pc
    running    := false
    loopStack  := [] }

/-- The outcome of a handler started in `s`: the state it completed with, or the fault action on `s` itself,
since a faulting instruction has written nothing (60_exceptions.md R180, R181; 00_scope.md R11). -/
def settle (s : State) : Except Condition State → Host.Outcome State Fault Refusal
  | .ok t    => .next t
  | .error c => .next (s.takeFault c)

end Machine

end Sys2Proof
end

