-- ==== Sys2Proof/Machine/Operands.lean ====
section
/-! DEFINITION. The mode check and every operand form: `value`, STO's target, the jump targets
(spec/40_step_and_system.md R90, R91; 41_load_store.md R107, R108; 42_jumps.md R115). -/

namespace Sys2Proof.Machine

/-- The operand forms of `value(mode, arg)`; mode3 is not one of them (40_step_and_system.md R91). -/
inductive Form where
  | direct
  | immediate
  | indirect
  deriving DecidableEq, Repr

/-- The mode a form is encoded with. -/
def Form.mode : Form → Mode
  | .direct    => .direct
  | .immediate => .immediate
  | .indirect  => .indirect

/-- The mode check at the head of a handler (40_step_and_system.md R90). -/
def requireMode (opcode : BitVec 4) (legal : List Mode) (m : Mode) : Except Condition Unit :=
  if m ∈ legal then .ok () else .error (.illegalAddressingMode opcode m)

/-- The mode check of the handlers that resolve their operand by `value`: it answers the operand form of a legal
mode. `legal` lists forms, so mode3 is refused by every such handler. -/
def requireForm (opcode : BitVec 4) (legal : List Form) (m : Mode) : Except Condition Form :=
  match legal.find? fun f => f.mode == m with
  | some f => .ok f
  | none   => .error (.illegalAddressingMode opcode m)

/-- `value(mode, arg)` (40_step_and_system.md R91). In indirect form the second read is not attempted if the
first faults. -/
def value : Form → Word → State → Except Condition Word
  | .direct,    arg, s => memRead arg s
  | .immediate, arg, _ => .ok arg
  | .indirect,  arg, s => do
    let p ← memRead arg s
    memRead p s

/-- STO's forms: the cell `arg`, or the cell whose index is in cell `arg` (41_load_store.md R107). -/
def storeTarget : Mode → Word → State → Except Condition Word
  | .direct,    arg, _ => .ok arg
  | .indirect,  arg, s => memRead arg s
  | .immediate, _,   _ => .error (.illegalAddressingMode 0x2 .immediate)
  | .mode3,     _,   _ => .error (.illegalAddressingMode 0x2 .mode3)

/-- Where JUMP and a taken JMPZ go; `pc` is the index of the jump itself (42_jumps.md R115). -/
def jumpTarget : Mode → Word → State → Except Condition Word
  | .direct,    arg, s => .ok (wrap (s.pc.toInt + arg.toInt))
  | .immediate, arg, _ => .ok arg
  | .indirect,  arg, s => do
    let d ← memRead arg s
    return wrap (s.pc.toInt + d.toInt)
  | .mode3,     arg, s => memRead arg s

end Sys2Proof.Machine
end

