-- ==== Sys2Proof/Machine/Arithmetic.lean ====
section
/-! DEFINITION. ADD, SUB, MUL and DIV (spec/43_arithmetic.md): exact integer results, narrowed by `wrap`. -/

namespace Sys2Proof.Machine

/-- The quotient truncated toward zero, `tdiv(a, b)` for `b != 0` (43_arithmetic.md R133). -/
def tdiv (a b : Int) : Int := Int.tdiv a b

/-- What ADD, SUB and MUL share: the mode check, the operand, `acc <- wrap(f acc v)`, `pc <- wrap(pc + 1)`. -/
def arithmetic (opcode : BitVec 4) (f : Int → Int → Int) (m : Mode) (arg : Word) (s : State) :
    Except Condition State := do
  let fm ← requireForm opcode [.direct, .immediate, .indirect] m
  let v ← value fm arg s
  return (s.setAcc (wrap (f s.acc.toInt v.toInt))).advance

/-- The handler of ADD (43_arithmetic.md R125). -/
def handleAdd (m : Mode) (arg : Word) (s : State) : Except Condition State :=
  arithmetic 0x5 (fun a v => a + v) m arg s

/-- ADD (43_arithmetic.md R125). -/
def execAdd (m : Mode) (arg : Word) (s : State) : Host.Outcome State Fault Refusal :=
  settle s (handleAdd m arg s)

/-- The handler of SUB; the accumulator is the minuend (43_arithmetic.md R126). -/
def handleSub (m : Mode) (arg : Word) (s : State) : Except Condition State :=
  arithmetic 0x6 (fun a v => a - v) m arg s

/-- SUB (43_arithmetic.md R126). -/
def execSub (m : Mode) (arg : Word) (s : State) : Host.Outcome State Fault Refusal :=
  settle s (handleSub m arg s)

/-- The handler of MUL (43_arithmetic.md R127). -/
def handleMul (m : Mode) (arg : Word) (s : State) : Except Condition State :=
  arithmetic 0x7 (fun a v => a * v) m arg s

/-- MUL (43_arithmetic.md R127). -/
def execMul (m : Mode) (arg : Word) (s : State) : Host.Outcome State Fault Refusal :=
  settle s (handleMul m arg s)

/-- The handler of DIV; the divisor is tested after it has been resolved (43_arithmetic.md R128). -/
def handleDiv (m : Mode) (arg : Word) (s : State) : Except Condition State := do
  let fm ← requireForm 0x8 [.direct, .immediate, .indirect] m
  let v ← value fm arg s
  if v = 0 then .error (.divideByZero m)
  else return (s.setAcc (wrap (tdiv s.acc.toInt v.toInt))).advance

/-- DIV (43_arithmetic.md R128). -/
def execDiv (m : Mode) (arg : Word) (s : State) : Host.Outcome State Fault Refusal :=
  settle s (handleDiv m arg s)

end Sys2Proof.Machine
end

