-- ==== Sys2Proof/Machine/For.lean ====
section
/-! DEFINITION. FOR and the loop stack (spec/45_for.md). A frame of `LoopStack` is one running FOR; `complete`
credits a completed Step to the innermost one. -/

namespace Sys2Proof.Machine

/-- The split of a count word: `outer = value mod 4096`, `inner = value div 4096`, both truncating toward zero
(45_for.md R152). -/
def splitCount (v : Word) : Int × Int :=
  (Int.tmod v.toInt Config.forSplit, Int.tdiv v.toInt Config.forSplit)

/-- `(outer, inner)` when both counts are positive, the only case in which FOR iterates (45_for.md R151, R154). -/
def positiveCounts (v : Word) : Option (Nat × Nat) :=
  let c := splitCount v
  if 0 < c.1 ∧ 0 < c.2 then some (c.1.toNat, c.2.toNat) else none

/-- FOR's mode check and its count word (45_for.md R151). -/
def countWord (m : Mode) (arg : Word) (s : State) : Except Condition Word := do
  let f ← requireForm 0xD [.direct, .immediate] m
  value f arg s

/-- `body_start`, the index after the FOR at `pc` (45_for.md R151). -/
def State.bodyStart (s : State) : Word := wrap (s.pc.toInt + 1)

/-- Starting an iterating FOR: its frame is pushed and `pc <- body_start` (45_for.md R158). -/
def State.startLoop (s : State) (outer inner : Nat) : State :=
  { s with
    pc        := s.bodyStart
    loopStack := ⟨s.bodyStart, inner, inner, outer⟩ :: s.loopStack }

/-- The handler of FOR. When a count is not positive it changes nothing, not even `pc` (45_for.md R154). -/
def handleFor (m : Mode) (arg : Word) (s : State) : Except Condition State := do
  let v ← countWord m arg s
  match positiveCounts v with
  | some (outer, inner) => return s.startLoop outer inner
  | none                => return s

/-- FOR (45_for.md R150, R158). -/
def execFor (m : Mode) (arg : Word) (s : State) : Host.Outcome State Fault Refusal :=
  settle s (handleFor m arg s)

/-- The counts of an instruction that is a FOR with legal mode whose counts are both positive; such a cycle ends
without a completed Step (45_for.md R158). -/
def loopCounts (i : Instr) (s : State) : Option (Nat × Nat) :=
  match i with
  | .forLoop m arg =>
    match countWord m arg s with
    | .ok v    => positiveCounts v
    | .error _ => none
  | _ => none

/-- `Complete()` on the stack alone: the stack it leaves, and the value of `pc` when a new pass starts
(45_for.md R159). -/
def creditStack : List Frame → Option Word × List Frame
  | []     => (none, [])
  | f :: r =>
    if 0 < f.jLeft - 1 then (none, { f with jLeft := f.jLeft - 1 } :: r)
    else if 0 < f.oLeft - 1 then
      (some f.bodyStart, { f with jLeft := f.inner, oLeft := f.oLeft - 1 } :: r)
    else creditStack r

/-- `Complete()` (45_for.md R159). -/
def State.complete (s : State) : State :=
  { s with
    pc        := (creditStack s.loopStack).1.getD s.pc
    loopStack := (creditStack s.loopStack).2 }

/-- How a cycle ends (45_for.md R158): the Step of an iterating FOR is still in progress; any other completes.
After HALT or a fault the stack is empty and `Complete()` changes nothing. -/
def finishCycle (i : Instr) (s t : State) : State :=
  if (loopCounts i s).isSome then t else t.complete

end Sys2Proof.Machine
end

