-- ==== Sys2Proof/Machine/Jumps.lean ====
section
/-! DEFINITION. JUMP and JMPZ (spec/42_jumps.md). -/

namespace Sys2Proof.Machine

/-- The handler of JUMP: all four modes are legal, and the target is not range-checked here (42_jumps.md R115). -/
def handleJump (m : Mode) (arg : Word) (s : State) : Except Condition State := do
  let t ← jumpTarget m arg s
  return s.setPc t

/-- JUMP (42_jumps.md R115). -/
def execJump (m : Mode) (arg : Word) (s : State) : Host.Outcome State Fault Refusal :=
  settle s (handleJump m arg s)

/-- The handler of JMPZ: when `acc` is not 0 no data access is made and `arg` plays no part (42_jumps.md R117). -/
def handleJmpz (m : Mode) (arg : Word) (s : State) : Except Condition State :=
  if s.acc = 0 then
    match jumpTarget m arg s with
    | .ok t    => .ok (s.setPc t)
    | .error c => .error c
  else
    .ok s.advance

/-- JMPZ (42_jumps.md R117). -/
def execJmpz (m : Mode) (arg : Word) (s : State) : Host.Outcome State Fault Refusal :=
  settle s (handleJmpz m arg s)

end Sys2Proof.Machine
end

