-- ==== Sys2Proof/Machine/LoadStore.lean ====
section
/-! DEFINITION. LOD and STO (spec/41_load_store.md). -/

namespace Sys2Proof.Machine

/-- The handler of LOD (41_load_store.md R105). -/
def handleLod (m : Mode) (arg : Word) (s : State) : Except Condition State := do
  let f ← requireForm 0x1 [.direct, .immediate, .indirect] m
  let v ← value f arg s
  return (s.setAcc v).advance

/-- LOD (41_load_store.md R105). -/
def execLod (m : Mode) (arg : Word) (s : State) : Host.Outcome State Fault Refusal :=
  settle s (handleLod m arg s)

/-- The handler of STO; the mode check stands in `storeTarget` (41_load_store.md R107). -/
def handleSto (m : Mode) (arg : Word) (s : State) : Except Condition State := do
  let target ← storeTarget m arg s
  let t ← memWrite target s.acc s
  return t.advance

/-- STO (41_load_store.md R107). -/
def execSto (m : Mode) (arg : Word) (s : State) : Host.Outcome State Fault Refusal :=
  settle s (handleSto m arg s)

end Sys2Proof.Machine
end

