-- ==== Sys2Proof/Machine/Flags.lean ====
section
/-! DEFINITION. The machine has no flags (spec/10_state.md R27). What the logic and compare instructions deliver
instead is a truth value in the accumulator (44_logic_compare.md). -/

namespace Sys2Proof.Machine

/-- A truth value as a word: exactly 1 or exactly 0 (44_logic_compare.md, introduction). -/
def truth (b : Bool) : Word := if b then 1 else 0

/-- A word as a truth value: zero is false, any other word is true (44_logic_compare.md, introduction). -/
def nonZero (v : Word) : Bool := v != 0

/-- The signed test `v < 0` of CMPL (44_logic_compare.md R142). -/
def isNegative (v : Word) : Bool := decide (v.toInt < 0)

end Sys2Proof.Machine
end

