-- ==== Sys2Proof/Machine/Logic.lean ====
section
/-! DEFINITION. AND, NOT, CMPL and CMPZ (spec/44_logic_compare.md): a truth value into the accumulator. -/

namespace Sys2Proof.Machine

/-- The handler of AND: logical, and the operand is resolved even when `acc` is 0 (44_logic_compare.md R140). -/
def handleAnd (m : Mode) (arg : Word) (s : State) : Except Condition State := do
  let f ← requireForm 0x9 [.direct, .immediate] m
  let v ← value f arg s
  return (s.setAcc (truth (nonZero s.acc && nonZero v))).advance

/-- AND (44_logic_compare.md R140). -/
def execAnd (m : Mode) (arg : Word) (s : State) : Host.Outcome State Fault Refusal :=
  settle s (handleAnd m arg s)

/-- The handler of NOT: `arg` is ignored, the mode must be direct (44_logic_compare.md R141). -/
def handleNot (m : Mode) (_arg : Word) (s : State) : Except Condition State := do
  requireMode 0xA [.direct] m
  return (s.setAcc (truth (!nonZero s.acc))).advance

/-- NOT (44_logic_compare.md R141). -/
def execNot (m : Mode) (arg : Word) (s : State) : Host.Outcome State Fault Refusal :=
  settle s (handleNot m arg s)

/-- What CMPL and CMPZ share: the cell `arg` tested against zero; `acc` plays no part
(44_logic_compare.md R142, R143). -/
def compareCell (opcode : BitVec 4) (test : Word → Bool) (m : Mode) (arg : Word) (s : State) :
    Except Condition State := do
  requireMode opcode [.direct] m
  let v ← memRead arg s
  return (s.setAcc (truth (test v))).advance

/-- The handler of CMPL (44_logic_compare.md R142). -/
def handleCmpl (m : Mode) (arg : Word) (s : State) : Except Condition State :=
  compareCell 0xB isNegative m arg s

/-- CMPL (44_logic_compare.md R142). -/
def execCmpl (m : Mode) (arg : Word) (s : State) : Host.Outcome State Fault Refusal :=
  settle s (handleCmpl m arg s)

/-- The handler of CMPZ (44_logic_compare.md R143). -/
def handleCmpz (m : Mode) (arg : Word) (s : State) : Except Condition State :=
  compareCell 0xC (fun v => !nonZero v) m arg s

/-- CMPZ (44_logic_compare.md R143). -/
def execCmpz (m : Mode) (arg : Word) (s : State) : Host.Outcome State Fault Refusal :=
  settle s (handleCmpz m arg s)

end Sys2Proof.Machine
end

