-- ==== Sys2Proof/Machine/System.lean ====
section
/-! DEFINITION. NOP, HALT and the undefined opcode 0xE (spec/40_step_and_system.md R96, R98, R100). -/

namespace Sys2Proof.Machine

/-- The handler of NOP; `arg` is ignored (40_step_and_system.md R96). -/
def handleNop (m : Mode) (_arg : Word) (s : State) : Except Condition State := do
  requireMode 0x0 [.direct] m
  return s.advance

/-- NOP (40_step_and_system.md R96). -/
def execNop (m : Mode) (arg : Word) (s : State) : Host.Outcome State Fault Refusal :=
  settle s (handleNop m arg s)

/-- The handler of HALT: the engine stops, every FOR in progress is abandoned, `pc` stays
(40_step_and_system.md R98, R99). -/
def handleHalt (m : Mode) (_arg : Word) (s : State) : Except Condition State := do
  requireMode 0xF [.direct] m
  return s.haltEngine

/-- HALT (40_step_and_system.md R98). -/
def execHalt (m : Mode) (arg : Word) (s : State) : Host.Outcome State Fault Refusal :=
  settle s (handleHalt m arg s)

/-- Opcode 0xE has no handler: UndefinedOpcode in every mode, the mode not examined
(40_step_and_system.md R100). -/
def handleUnused0E (_m : Mode) (_arg : Word) (_s : State) : Except Condition State :=
  .error (.undefinedOpcode 0xE)

/-- The undefined opcode 0xE (40_step_and_system.md R100). -/
def execUnused0E (m : Mode) (arg : Word) (s : State) : Host.Outcome State Fault Refusal :=
  settle s (handleUnused0E m arg s)

end Sys2Proof.Machine
end

