-- ==== Sys2Proof/Machine/Dispatch.lean ====
section
/-! DEFINITION. Dispatch: the fixed mapping from opcode to handler (spec/40_step_and_system.md R89). -/

namespace Sys2Proof.Machine

def exec (i : Instr) (s : State) : Host.Outcome State Fault Refusal :=
  match i with
  | .nop m arg => Sys2Proof.Machine.execNop m arg s
  | .lod m arg => Sys2Proof.Machine.execLod m arg s
  | .sto m arg => Sys2Proof.Machine.execSto m arg s
  | .jump m arg => Sys2Proof.Machine.execJump m arg s
  | .jmpz m arg => Sys2Proof.Machine.execJmpz m arg s
  | .add m arg => Sys2Proof.Machine.execAdd m arg s
  | .sub m arg => Sys2Proof.Machine.execSub m arg s
  | .mul m arg => Sys2Proof.Machine.execMul m arg s
  | .div m arg => Sys2Proof.Machine.execDiv m arg s
  | .logAnd m arg => Sys2Proof.Machine.execAnd m arg s
  | .logNot m arg => Sys2Proof.Machine.execNot m arg s
  | .cmpl m arg => Sys2Proof.Machine.execCmpl m arg s
  | .cmpz m arg => Sys2Proof.Machine.execCmpz m arg s
  | .forLoop m arg => Sys2Proof.Machine.execFor m arg s
  | .unused0E m arg => Sys2Proof.Machine.execUnused0E m arg s
  | .halt m arg => Sys2Proof.Machine.execHalt m arg s

end Sys2Proof.Machine
end

