-- ==== Sys2Proof/Machine/Fetch.lean ====
section
/-! DEFINITION. Fetch and decode, steps 1 to 3 of `Step()` (spec/40_step_and_system.md R85), and what condition
the next cycle raises. -/

namespace Sys2Proof.Machine

/-- The condition a refused word raises (30_encoding.md R65, R61; 40_step_and_system.md R100). -/
def rejectCondition : Reject → Condition
  | .corrupted    => .corruptedInstruction
  | .noHandler oc => .undefinedOpcode oc

/-- The instruction at `pc`, or the condition the fetch stage raises (40_step_and_system.md R86 to R89). -/
def fetchInstr (s : State) : Except Condition Instr := do
  let w ← codeRead s.pc s
  match decode w.1 w.2 with
  | .ok i    => .ok i
  | .error r => .error (rejectCondition r)

/-- The pure handlers `exec` settles, one per opcode (40_step_and_system.md R89). -/
def handle (i : Instr) (s : State) : Except Condition State :=
  match i with
  | .nop m arg      => handleNop m arg s
  | .lod m arg      => handleLod m arg s
  | .sto m arg      => handleSto m arg s
  | .jump m arg     => handleJump m arg s
  | .jmpz m arg     => handleJmpz m arg s
  | .add m arg      => handleAdd m arg s
  | .sub m arg      => handleSub m arg s
  | .mul m arg      => handleMul m arg s
  | .div m arg      => handleDiv m arg s
  | .logAnd m arg   => handleAnd m arg s
  | .logNot m arg   => handleNot m arg s
  | .cmpl m arg     => handleCmpl m arg s
  | .cmpz m arg     => handleCmpz m arg s
  | .forLoop m arg  => handleFor m arg s
  | .unused0E m arg => handleUnused0E m arg s
  | .halt m arg     => handleHalt m arg s

/-- The condition the next cycle raises, if any: what `step` reports to its caller (60_exceptions.md R180). -/
def raisedBy (s : State) : Option Condition :=
  if s.running then
    match fetchInstr s with
    | .error c => some c
    | .ok i =>
      match handle i s with
      | .error c => some c
      | .ok _    => none
  else none

end Sys2Proof.Machine
end

