-- ==== Sys2Proof/Machine/Step.lean ====
section
/-! DEFINITION. One cycle of the engine (spec/45_for.md R158; 40_step_and_system.md R85), and placing an
instruction where the next cycle fetches it. -/

namespace Sys2Proof.Machine

/-- One cycle: while running, fetch, decode, execute, and credit the completed Step; while halted, no state
changes (45_for.md R158, 40_step_and_system.md R94). DESIGN CHOICE of granularity: a whole FOR is many cycles,
as 45_for.md R162 allows (notes/assumptions/4.md). -/
def step (s : State) : Host.Outcome State Fault Refusal :=
  if s.running then
    match fetchInstr s with
    | .error c => .next (s.takeFault c)
    | .ok i =>
      match exec i s with
      | .next t    => .next (finishCycle i s t)
      | .fault r   => .fault r
      | .refused r => .refused r
  else .next s

/-- `s` with a table word in the Code Store where the next cycle fetches: entry `pc`, or entry 0 with `pc = 0`
where `pc` is no index of the Code Store. The engine is set running, since a halted engine fetches nothing
(notes/assumptions/6.md). -/
def State.withFetchWord (s : State) (nbits w : Nat) : State :=
  let at_ : Word := if inRange s.pc then s.pc else 0
  { s with
    pc      := at_
    running := true
    codeOp  := s.codeOp.write at_.toNat (tableWord nbits w).1
    codeArg := s.codeArg.write at_.toNat (tableWord nbits w).2 }

end Sys2Proof.Machine
end

