-- ==== Sys2Proof/Machine/Assembler.lean ====
section
/-! DEFINITION. The assembler's contract with the engine (spec/30_encoding.md R76 to R80) over already parsed
lines: mnemonics, argument markers, and the word each line becomes. Text parsing, status codes and files are out
of scope (00_scope.md R4). -/

namespace Sys2Proof.Machine

/-- The fifteen mnemonics (30_encoding.md R76). Opcode 0xE has none. -/
inductive Mnemonic where
  | nop | lod | sto | jump | jmpz | add | sub | mul | div | logAnd | logNot | cmpl | cmpz | forLoop | halt
  deriving DecidableEq, Repr

/-- How a mnemonic is written (30_encoding.md R76). -/
def Mnemonic.text : Mnemonic → String
  | .nop     => "NOP"
  | .lod     => "LOD"
  | .sto     => "STO"
  | .jump    => "JUMP"
  | .jmpz    => "JMPZ"
  | .add     => "ADD"
  | .sub     => "SUB"
  | .mul     => "MUL"
  | .div     => "DIV"
  | .logAnd  => "AND"
  | .logNot  => "NOT"
  | .cmpl    => "CMPL"
  | .cmpz    => "CMPZ"
  | .forLoop => "FOR"
  | .halt    => "HALT"

/-- The instruction of a mnemonic with a mode and an argument; never another instruction (30_encoding.md R80). -/
def Mnemonic.instr (n : Mnemonic) (m : Mode) (arg : Word) : Instr :=
  match n with
  | .nop     => .nop m arg
  | .lod     => .lod m arg
  | .sto     => .sto m arg
  | .jump    => .jump m arg
  | .jmpz    => .jmpz m arg
  | .add     => .add m arg
  | .sub     => .sub m arg
  | .mul     => .mul m arg
  | .div     => .div m arg
  | .logAnd  => .logAnd m arg
  | .logNot  => .logNot m arg
  | .cmpl    => .cmpl m arg
  | .cmpz    => .cmpz m arg
  | .forLoop => .forLoop m arg
  | .halt    => .halt m arg

/-- The mnemonics that must appear with zero arguments (30_encoding.md R78). -/
def Mnemonic.noArgument : Mnemonic → Bool
  | .nop | .logNot | .halt => true
  | .lod | .sto | .jump | .jmpz | .add | .sub | .mul | .div | .logAnd | .cmpl | .cmpz | .forLoop => false

/-- The mark before an argument: none, `#`, `@` or `&` (30_encoding.md R77). -/
inductive Marker where
  | none
  | hash
  | at
  | ampersand
  deriving DecidableEq, Repr

/-- The mode a mark selects (30_encoding.md R77). -/
def Marker.mode : Marker → Mode
  | .none      => .direct
  | .hash      => .immediate
  | .at        => .indirect
  | .ampersand => .mode3

/-- The word a line assembles to, or nothing where the number of arguments is wrong (30_encoding.md R78). Every
mark is accepted with every mnemonic that takes an argument: the engine alone enforces modes (R80). -/
def assembleLine (n : Mnemonic) (argument : Option (Marker × Word)) : Option (Byte × Word) :=
  match n.noArgument, argument with
  | true,  .none         => some (encode (n.instr .direct 0))
  | true,  .some _       => none
  | false, .none         => none
  | false, .some (k, a)  => some (encode (n.instr k.mode a))

end Sys2Proof.Machine
end

