-- ==== Sys2Proof/Machine/HostOps.lean ====
section
/-! DEFINITION. The host operations of the embedding contract (spec/70_reset_and_hazards.md R197 to R206). -/

namespace Sys2Proof.Machine

/-- Why a host operation is refused; the state is then unchanged. -/
inductive HostRefusal where
  /-- `OutOfRangeAddress(i)` reported to the host (70_reset_and_hazards.md R205). -/
  | outOfRangeAddress (i : Int)
  /-- Any operation while a top-level Step is in progress: the model offers the host none (R199). -/
  | stepInProgress
  deriving DecidableEq, Repr

/-- The host discipline: an operation is offered only between top-level Steps, when no FOR is in progress; during
one it is refused, whatever it would do (70_reset_and_hazards.md R199; notes/assumptions/11.md). -/
def offered {α : Type} (s : State) (r : Except HostRefusal α) : Except HostRefusal α :=
  if s.loopStack = [] then r else .error .stepInProgress

/-- The range check of a host index; the host may name any integer (70_reset_and_hazards.md R205). -/
def hostInRange (i : Int) : Bool := decide (0 ≤ i) && decide (i.toNat < Config.memSize)

/-- What `clear()` does: the reset contents, `running` unchanged (70_reset_and_hazards.md R197). -/
def State.clear (s : State) : State := { State.reset with running := s.running }

/-- What `set_running(b)` does (70_reset_and_hazards.md R200). -/
def State.setRunning (s : State) (b : Bool) : State := { s with running := b }

/-- `is_running()` (70_reset_and_hazards.md R200). -/
def isRunning (s : State) : Except HostRefusal Bool := offered s (.ok s.running)

/-- `set_code(i, op_byte, arg)`: nothing is checked about the word (70_reset_and_hazards.md R201). -/
def setCode (i : Int) (op : Byte) (arg : Word) (s : State) : Except HostRefusal State :=
  offered s <|
    if hostInRange i then
      .ok { s with codeOp := s.codeOp.write i.toNat op, codeArg := s.codeArg.write i.toNat arg }
    else .error (.outOfRangeAddress i)

/-- `set_data(i, v)`: the write of 20_memory.md R43 (70_reset_and_hazards.md R202). -/
def setData (i : Int) (v : Word) (s : State) : Except HostRefusal State :=
  offered s (if hostInRange i then .ok (s.storeWord (wrap i) v) else .error (.outOfRangeAddress i))

/-- `get_data(i)` (70_reset_and_hazards.md R202). -/
def getData (i : Int) (s : State) : Except HostRefusal Word :=
  offered s (if hostInRange i then .ok (s.mem.read i.toNat) else .error (.outOfRangeAddress i))

/-- `get_accumulator()` (70_reset_and_hazards.md R203). -/
def getAccumulator (s : State) : Except HostRefusal Int := offered s (.ok s.acc.toInt)

/-- `get_pc()`: the signed value of the register (70_reset_and_hazards.md R203). -/
def getPc (s : State) : Except HostRefusal Int := offered s (.ok s.pc.toInt)

/-- `get_changed_index()` (70_reset_and_hazards.md R203). -/
def getChangedIndex (s : State) : Except HostRefusal Int := offered s (.ok s.changedIndex.toInt)

/-- The fault registers, readable in the same way (70_reset_and_hazards.md R203). -/
def getFault (s : State) : Except HostRefusal (BitVec 3 × FaultInfo) := offered s (.ok (s.faultCause, s.faultInfo))

/-- The host operations that change state, but for `step` (70_reset_and_hazards.md R198). -/
inductive HostOp where
  | reset
  | clear
  | setCode (i : Int) (op : Byte) (arg : Word)
  | setData (i : Int) (v : Word)
  | setRunning (b : Bool)
  deriving DecidableEq, Repr

/-- A host move. Reset is the construction of a new engine, no operation on this one, and is always possible
(70_reset_and_hazards.md R195); every other move is offered between top-level Steps only (R199). -/
def hostMove (op : HostOp) (s : State) : Except HostRefusal State :=
  match op with
  | .reset         => .ok State.reset
  | .clear         => offered s (.ok s.clear)
  | .setCode i b a => setCode i b a s
  | .setData i v   => setData i v s
  | .setRunning b  => offered s (.ok (s.setRunning b))

/-- The engine's own work in a top-level Step, or in the rest of one: cycles until the engine is halted or no FOR is
in progress, with the condition raised, if any (40_step_and_system.md R94, 45_for.md R160). No host operation:
`hostStep` is. `none`: not finished within `cycles` cycles; a top-level Step may take any number, or never finish
(45_for.md R163). -/
def topStep : Nat → State → Option (State × Option Condition)
  | 0, _          => none
  | cycles + 1, s =>
    match step s with
    | .next t =>
      if t.running && !t.loopStack.isEmpty then topStep cycles t else some (t, raisedBy s)
    | .fault _   => none
    | .refused _ => none

/-- The host's `step()`: one whole top-level Step with its report; `step` is not re-entered
(70_reset_and_hazards.md R204, R199). `none` as for `topStep`. -/
def hostStep (cycles : Nat) (s : State) : Except HostRefusal (Option (State × Option Condition)) :=
  offered s (.ok (topStep cycles s))

/-- Loading code words from entry `k` on, line by line (30_encoding.md R79, 70_reset_and_hazards.md R206). -/
def loadCode : Nat → List (Byte × Word) → State → Except HostRefusal State
  | _, [], s          => .ok s
  | k, (op, a) :: l, s => do
    let t ← setCode k op a s
    loadCode (k + 1) l t

/-- Loading data cells (70_reset_and_hazards.md R206). -/
def loadData : List (Int × Word) → State → Except HostRefusal State
  | [], s          => .ok s
  | (i, v) :: l, s => do
    let t ← setData i v s
    loadData l t

/-- What the host does before a run: clear, load code, load data, `set_running(1)`
(70_reset_and_hazards.md R206), each of them a host operation. -/
def boot (code : List (Byte × Word)) (data : List (Int × Word)) (s : State) : Except HostRefusal State := do
  let r ← hostMove .clear s
  let t ← loadCode 0 code r
  let u ← loadData data t
  hostMove (.setRunning true) u

end Sys2Proof.Machine
end

