-- ==== Sys2Proof/Machine/Recursive.lean ====
section
/-! DEFINITION. The source's own definition of FOR, by recursion (spec/45_for.md R151; 40_step_and_system.md R85),
beside the loop-stack form that `step` runs. It uses no `LoopStack`; the pending iterations are the recursion's. -/

namespace Sys2Proof.Machine

/-- `repeat n times: Step()`, ended at once by a Step that leaves the engine halted (45_for.md R151, R156). -/
def repeatSteps (once : State → Option State) : Nat → State → Option State
  | 0, s     => some s
  | n + 1, s =>
    match once s with
    | none   => none
    | some t => if t.running then repeatSteps once n t else some t

/-- `repeat n times: pc <- body_start; repeat inner times: Step()` (45_for.md R151). -/
def repeatPasses (once : State → Option State) (body : Word) (inner : Nat) : Nat → State → Option State
  | 0, s     => some s
  | n + 1, s =>
    match repeatSteps once inner (s.setPc body) with
    | none   => none
    | some t => if t.running then repeatPasses once body inner n t else some t

/-- `Step()` with FOR nested at most `depth` deep; `none` when it nests deeper. The depth is no limit of the
machine: a claim about the recursive Step says that some depth is enough (45_for.md R163;
notes/assumptions/4.md). -/
def recStep : Nat → State → Option State
  | 0, _         => none
  | depth + 1, s =>
    match fetchInstr s with
    | .error c => some (s.takeFault c)
    | .ok i =>
      match loopCounts i s with
      | some (outer, inner) => repeatPasses (recStep depth) s.bodyStart inner outer s
      | none =>
        match exec i s with
        | .next t    => some t
        | .fault _   => none
        | .refused _ => none

/-- A top-level Step by the recursive definition: nothing happens while halted (40_step_and_system.md R94). -/
def recTopStep (depth : Nat) (s : State) : Option State :=
  if s.running then recStep depth s else some s

end Sys2Proof.Machine
end

