-- ==== Sys2Proof/Safety.lean ====
section
/-! DEFINITION. The terms claims use: valid addresses, the invariant of every state a run reaches, how a run ends,
and the two definitions of a top-level Step. -/

namespace Sys2Proof.Machine

/-- An address in range, as the spec writes it: `0 <= a < MEM_SIZE`, signed (20_memory.md R41). -/
abbrev ValidAddress (a : Word) : Prop := 0 ≤ a.toInt ∧ a.toInt < (Config.memSize : Int)

/-- The bounds of a frame (10_state.md R33; 45_for.md R152): `body_start` follows a fetched FOR, `j_left` is
`1 .. inner`, `inner` at most `(2^(W-1) - 1) div 4096`, `o_left` is `1 .. 4095`. -/
abbrev Frame.ok (f : Frame) : Prop :=
  ValidAddress (f.bodyStart - 1) ∧ 1 ≤ f.jLeft ∧ f.jLeft ≤ f.inner ∧ f.inner ≤ (2 ^ (W - 1) - 1) / 4096 ∧
    1 ≤ f.oLeft ∧ f.oLeft ≤ 4095

/-- The invariant of the machine: the three stores are in canonical form and list only valid indices, every frame
is within its bounds, a halted engine has no FOR in progress (10_state.md R33), `fault_cause` is one of the codes
0 .. 5 (60_exceptions.md R170) and `changed_index` is -1 or a valid index (10_state.md R30). -/
structure StateInv (s : State) : Prop where
  memWf          : s.mem.wf = true
  memBounded     : s.mem.bounded = true
  codeOpWf       : s.codeOp.wf = true
  codeOpBounded  : s.codeOp.bounded = true
  codeArgWf      : s.codeArg.wf = true
  codeArgBounded : s.codeArg.bounded = true
  frames         : ∀ f ∈ s.loopStack, Frame.ok f
  haltedNoLoop   : s.running = false → s.loopStack = []
  causeKnown     : s.faultCause.toNat ≤ 5
  changedKnown   : s.changedIndex = -1 ∨ ValidAddress s.changedIndex

/-- No top-level Step is in progress: the host may act (70_reset_and_hazards.md R199). -/
abbrev betweenSteps (s : State) : Prop := s.loopStack = []

/-- A run has ended, and ended well: the engine is halted and no fault is recorded (70_reset_and_hazards.md R207). -/
abbrev haltedNormally (s : State) : Prop := s.running = false ∧ s.faultCause = 0

/-- A run has ended in a fault (70_reset_and_hazards.md R207). -/
abbrev haltedByFault (s : State) : Prop := s.running = false ∧ s.faultCause ≠ 0

/-- A top-level Step from `s` ends in `t`, by the loop-stack definition (45_for.md R158 to R160). -/
def TopStepsTo (s t : State) : Prop := ∃ cycles report, topStep cycles s = some (t, report)

/-- A top-level Step from `s` ends in `t`, by the recursive definition (45_for.md R151). -/
def RecStepsTo (s t : State) : Prop := ∃ depth, recTopStep depth s = some t

/-- The states the engine reaches by its own cycles. -/
inductive Reaches : State → State → Prop where
  | refl (s : State) : Reaches s s
  | cycle (s t u : State) : Reaches s t → step t = .next u → Reaches s u

/-- A state from which the engine never takes a fault: no cycle it reaches raises a condition. -/
def Safe (s : State) : Prop := ∀ t, Reaches s t → raisedBy t = none

/-- The operand of a form is the word `v`: `Mem[arg]`, `arg` itself, or `Mem[Mem[arg]]`, with every address in
range (40_step_and_system.md R91). -/
def OperandIs (f : Form) (arg : Word) (s : State) (v : Word) : Prop :=
  match f with
  | .direct    => ValidAddress arg ∧ v = s.mem.read arg.toNat
  | .immediate => v = arg
  | .indirect  => ValidAddress arg ∧ ValidAddress (s.mem.read arg.toNat) ∧
      v = s.mem.read (s.mem.read arg.toNat).toNat

/-- Resolving the operand of a form is out of range at index `a` (40_step_and_system.md R91). -/
def OperandOutOfRange (f : Form) (arg : Word) (s : State) (a : Word) : Prop :=
  match f with
  | .direct    => ¬ ValidAddress arg ∧ a = arg
  | .immediate => False
  | .indirect  => (¬ ValidAddress arg ∧ a = arg) ∨
      (ValidAddress arg ∧ ¬ ValidAddress (s.mem.read arg.toNat) ∧ a = s.mem.read arg.toNat)

/-- The instructions that write the accumulator (10_state.md R21). -/
def writesAcc : Instr → Bool
  | .lod _ _ | .add _ _ | .sub _ _ | .mul _ _ | .div _ _ | .logAnd _ _ | .logNot _ _ | .cmpl _ _
  | .cmpz _ _ => true
  | .nop _ _ | .sto _ _ | .jump _ _ | .jmpz _ _ | .forLoop _ _ | .unused0E _ _ | .halt _ _ => false

end Sys2Proof.Machine
end

