-- ==== Sys2Proof/Certificates/Slice0/Obligations.lean ====
section
/-! DEFINITION. The statements for the provers. A statement whose docstring names a decision D<n> rests on a choice
the spec marks as its own (spec/92_eei_decisions.md); one that says "model" rests on the log entry it names. -/

open Sys2Proof Sys2Proof.Machine

/-! ### The codec -/

/-- Words written out from 30_encoding.md R68 and 95_test_vectors.md S7 and V-CODEC decode to what they stand for. -/
def Obligations.WrittenWordsDecode : Prop :=
  decode 0x0A 5 = .ok (.lod .immediate 5) ∧ decode 0x28 0 = .ok (.add .direct 0) ∧
  decode 0x78 0 = .ok (.halt .direct 0) ∧ decode 0x14 1 = .ok (.sto .indirect 1) ∧
  decode 0x1E 1 = .ok (.jump .mode3 1) ∧ decode 0x6A 0x2003 = .ok (.forLoop .immediate 0x2003) ∧
  decode 0x71 0 = .ok (.unused0E .direct 0) ∧ decode 0x08 0 = .error .corrupted ∧
  decode 0x70 0 = .error .corrupted ∧ decode 0x81 0 = .error (.noHandler 16) ∧
  decode 0xFF 0 = .error (.noHandler 31)

/-- Decode and encode agree both ways: decoding the word of any instruction gives it back, and a word that decodes
is the word of what it decodes to, so each instruction has exactly one word. -/
def Obligations.DecodeEncodeAgree : Prop :=
  (∀ i : Instr, decode (encode i).1 (encode i).2 = .ok i) ∧
  ∀ (op : Byte) (arg : Word) (i : Instr), decode op arg = .ok i → encode i = (op, arg)

/-- `unpack` after `pack` gives the pair back and the byte passes the parity check; `pack` after `unpack` gives
back every byte of even parity with bit 7 clear (30_encoding.md, the rule of the round trip). -/
def Obligations.PackUnpackRoundTrip : Prop :=
  (∀ (oc : BitVec 4) (m : Mode), unpack (pack oc m) = (oc.setWidth 5, m) ∧ checkParity (pack oc m) = true) ∧
  ∀ b : Byte, checkParity b = true → b.getLsbD 7 = false → pack ((unpack b).1.setWidth 4) (unpack b).2 = b

/-- R65: a fetched word whose eight bits hold an odd number of ones raises CorruptedInstruction, whatever its
opcode, mode and arg; a word of even parity never raises it. -/
def Obligations.OddParityRaisesCorrupted : Prop :=
  ∀ s : State, s.running = true → ValidAddress s.pc →
    let op := s.codeOp.read s.pc.toNat
    let ones := (List.range 8).map fun k => (op.getLsbD k).toNat
    (ones.sum % 2 = 1 →
      raisedBy s = some .corruptedInstruction ∧ step s = .next (s.takeFault .corruptedInstruction)) ∧
    (ones.sum % 2 = 0 → raisedBy s ≠ some .corruptedInstruction)

/-- A line the assembler accepts becomes the word of its own mnemonic: with its mark's mode and its argument, or
direct with arg 0 for the mnemonics without argument; mode3 is accepted for every mnemonic that takes an
argument. The arg 0 is the spec's decision D21. -/
def Obligations.AssembledLineDecodes : Prop :=
  (∀ (n : Mnemonic) (k : Marker) (a : Word), n.noArgument = false →
    ∃ w, assembleLine n (some (k, a)) = some w ∧ decode w.1 w.2 = .ok (n.instr k.mode a)) ∧
  (∀ n : Mnemonic, n.noArgument = true →
    ∃ w, assembleLine n none = some w ∧ decode w.1 w.2 = .ok (n.instr .direct 0)) ∧
  (∀ (n : Mnemonic) (k : Marker) (a : Word), n.noArgument = true → assembleLine n (some (k, a)) = none) ∧
  ∀ n : Mnemonic, n.noArgument = false → assembleLine n none = none

/-! ### Reset, memory and operands -/

/-- After reset everything is zero, the engine is not running and no index has been written. `running = 0`, the
fault registers and `changed_index = -1` are the spec's decisions D15, D14 and D17. -/
def Obligations.ResetValues : Prop :=
  State.reset.acc = 0 ∧ State.reset.pc = 0 ∧ (∀ a, State.reset.mem.read a = 0) ∧
  (∀ a, State.reset.codeOp.read a = 0) ∧ (∀ a, State.reset.codeArg.read a = 0) ∧
  State.reset.running = false ∧ State.reset.faultCause = 0 ∧ State.reset.faultInfo = ⟨0, 0, 0⟩ ∧
  State.reset.changedIndex.toInt = -1 ∧ State.reset.loopStack = []

/-- R43: a data write in range stores the word, sets `changed_index`, and leaves every other word and all else
alone; out of range it writes nothing and raises OutOfRangeAddress(a). -/
def Obligations.DataWriteStoresOneWord : Prop :=
  ∀ (a v : Word) (s : State),
    (0 ≤ a.toInt ∧ a.toInt < (Config.memSize : Int) → s.mem.wf = true →
      ∃ t, memWrite a v s = .ok t ∧ t.mem.read a.toNat = v ∧ t.changedIndex = a ∧
        (∀ b, b ≠ a.toNat → t.mem.read b = s.mem.read b) ∧
        t = { s with mem := t.mem, changedIndex := a }) ∧
    (¬ (0 ≤ a.toInt ∧ a.toInt < (Config.memSize : Int)) → memWrite a v s = .error (.outOfRangeAddress a))

/-- R42 and R44: a data read in range answers `Mem[a]` and a code read both fields of entry `a`; out of range each
raises OutOfRangeAddress(a). A read answers no state, so none changes. -/
def Obligations.ReadsCheckRange : Prop :=
  ∀ (a : Word) (s : State),
    (0 ≤ a.toInt ∧ a.toInt < (Config.memSize : Int) →
      memRead a s = .ok (s.mem.read a.toNat) ∧
      codeRead a s = .ok (s.codeOp.read a.toNat, s.codeArg.read a.toNat)) ∧
    (¬ (0 ≤ a.toInt ∧ a.toInt < (Config.memSize : Int)) →
      memRead a s = .error (.outOfRangeAddress a) ∧ codeRead a s = .error (.outOfRangeAddress a))

/-- The model's canonical form (notes/assumptions/3.md): two stores in it that read the same everywhere are equal,
and a write keeps it. -/
def Obligations.CanonicalStoresAreTheirReads : Prop :=
  ∀ (m n : Memory W), m.wf = true → n.wf = true →
    ((∀ a, m.read a = n.read a) → m = n) ∧ ∀ (a : Nat) (v : Word), (m.write a v).wf = true

/-- R91: the operand of each form, and the index each failing read reports; in indirect form the second read is
not attempted if the first is out of range. -/
def Obligations.OperandResolution : Prop :=
  ∀ (f : Form) (arg : Word) (s : State),
    (∀ v, value f arg s = .ok v ↔ OperandIs f arg s v) ∧
    ∀ c, value f arg s = .error c ↔ ∃ a, OperandOutOfRange f arg s a ∧ c = .outOfRangeAddress a

/-! ### The cycle -/

/-- A cycle at a valid `pc` whose word decodes to `i` runs `i`: the cycle's state is `exec`'s, with the completed
Step credited to the innermost FOR in progress unless `i` is a FOR that iterates (45_for.md, the loop stack
formulation, which the spec marks as derived; notes/assumptions/4.md). -/
def Obligations.StepRunsDecodedInstruction : Prop :=
  ∀ (s : State) (i : Instr), s.running = true → ValidAddress s.pc →
    decode (s.codeOp.read s.pc.toNat) (s.codeArg.read s.pc.toNat) = .ok i →
    ∃ t, exec i s = .next t ∧ step s = .next (if loopCounts i s = none then t.complete else t)

/-- R86: the fetch reads both fields of the entry at `pc`; at an invalid `pc` it raises OutOfRangeAddress(pc) and
nothing else of the Step happens. -/
def Obligations.FetchAtInvalidPc : Prop :=
  ∀ s : State, s.running = true →
    (ValidAddress s.pc →
      fetchInstr s = match decode (s.codeOp.read s.pc.toNat) (s.codeArg.read s.pc.toNat) with
        | .ok i => .ok i
        | .error .corrupted => .error .corruptedInstruction
        | .error (.noHandler oc) => .error (.undefinedOpcode oc)) ∧
    (¬ ValidAddress s.pc → step s = .next (s.takeFault (.outOfRangeAddress s.pc)))

/-- A step requested while the engine is halted changes nothing and reports nothing: the spec's decision D12. -/
def Obligations.HaltedEngineIgnoresStep : Prop :=
  ∀ s : State, s.running = false → step s = .next s ∧ ∀ k, topStep (k + 1) s = some (s, none)

/-- No cycle ends in a fault or a refusal of the model: every condition is taken as a next state
(notes/assumptions/5.md). -/
def Obligations.EveryCycleAnswersNext : Prop :=
  (∀ s : State, ∃ t, step s = .next t) ∧ ∀ (i : Instr) (s : State), ∃ t, exec i s = .next t

/-- A table word placed where the next cycle fetches is what the next cycle runs (model, notes/assumptions/6.md). -/
def Obligations.PlacedWordRunsNext : Prop :=
  ∀ (s : State) (nbits w : Nat) (i : Instr), s.codeOp.wf = true → s.codeArg.wf = true →
    decodeTableWord nbits w = some i →
    ∃ t, exec i (s.withFetchWord nbits w) = .next t ∧
      step (s.withFetchWord nbits w) = .next (finishCycle i (s.withFetchWord nbits w) t)

/-! ### The instructions -/

/-- R96: NOP only advances `pc`; any other mode than direct raises IllegalAddressingMode. -/
def Obligations.NopOnlyAdvances : Prop :=
  ∀ arg : Word,
    (decode 0x00 arg = .ok (.nop .direct arg) ∧ decode 0x03 arg = .ok (.nop .immediate arg) ∧
      decode 0x05 arg = .ok (.nop .indirect arg) ∧ decode 0x06 arg = .ok (.nop .mode3 arg)) ∧
    ∀ s : State,
      exec (.nop .direct arg) s = .next { s with pc := s.pc + 1 } ∧
      ∀ m, m ≠ .direct → exec (.nop m arg) s = .next (s.takeFault (.illegalAddressingMode 0x0 m))

/-- R105: LOD loads its operand; out of range or in mode3 it raises. -/
def Obligations.LodLoadsOperand : Prop :=
  ∀ arg : Word,
    (decode 0x09 arg = .ok (.lod .direct arg) ∧ decode 0x0A arg = .ok (.lod .immediate arg) ∧
      decode 0x0C arg = .ok (.lod .indirect arg) ∧ decode 0x0F arg = .ok (.lod .mode3 arg)) ∧
    ∀ (s : State) (f : Form),
      (∀ v, OperandIs f arg s v → exec (.lod f.mode arg) s = .next { s with acc := v, pc := s.pc + 1 }) ∧
      (∀ a, OperandOutOfRange f arg s a → exec (.lod f.mode arg) s = .next (s.takeFault (.outOfRangeAddress a))) ∧
      exec (.lod .mode3 arg) s = .next (s.takeFault (.illegalAddressingMode 0x1 .mode3))

/-- STO stores `acc` in the cell `arg` (direct) or the cell whose index is in cell `arg` (indirect), and
sets `changed_index`; out of range nothing is written; immediate and mode3 are illegal. That these are
the two forms of the target is the spec's inference (91_not_in_source.md N6). -/
def Obligations.StoStoresAccumulator : Prop :=
  ∀ arg : Word,
    (decode 0x11 arg = .ok (.sto .direct arg) ∧ decode 0x12 arg = .ok (.sto .immediate arg) ∧
      decode 0x14 arg = .ok (.sto .indirect arg) ∧ decode 0x17 arg = .ok (.sto .mode3 arg)) ∧
    ∀ s : State,
      (ValidAddress arg → exec (.sto .direct arg) s =
        .next { s with mem := s.mem.write arg.toNat s.acc, changedIndex := arg, pc := s.pc + 1 }) ∧
      (¬ ValidAddress arg → exec (.sto .direct arg) s = .next (s.takeFault (.outOfRangeAddress arg))) ∧
      (∀ target, ValidAddress arg → target = s.mem.read arg.toNat → ValidAddress target →
        exec (.sto .indirect arg) s =
          .next { s with mem := s.mem.write target.toNat s.acc, changedIndex := target, pc := s.pc + 1 }) ∧
      (¬ ValidAddress arg → exec (.sto .indirect arg) s = .next (s.takeFault (.outOfRangeAddress arg))) ∧
      (∀ target, ValidAddress arg → target = s.mem.read arg.toNat → ¬ ValidAddress target →
        exec (.sto .indirect arg) s = .next (s.takeFault (.outOfRangeAddress target))) ∧
      exec (.sto .immediate arg) s = .next (s.takeFault (.illegalAddressingMode 0x2 .immediate)) ∧
      exec (.sto .mode3 arg) s = .next (s.takeFault (.illegalAddressingMode 0x2 .mode3))

/-- JUMP sets `pc` per mode, relative to its own index in direct and indirect mode; only the pointer read can raise.
That the target is not checked is the spec's decision D7 (notes/assumptions/15.md), that `pc + arg` wraps its
decision D3 (notes/assumptions/7.md). -/
def Obligations.JumpSetsPcPerMode : Prop :=
  ∀ arg : Word,
    (decode 0x18 arg = .ok (.jump .direct arg) ∧ decode 0x1B arg = .ok (.jump .immediate arg) ∧
      decode 0x1D arg = .ok (.jump .indirect arg) ∧ decode 0x1E arg = .ok (.jump .mode3 arg)) ∧
    ∀ s : State,
      exec (.jump .direct arg) s = .next { s with pc := s.pc + arg } ∧
      exec (.jump .immediate arg) s = .next { s with pc := arg } ∧
      (ValidAddress arg →
        exec (.jump .indirect arg) s = .next { s with pc := s.pc + s.mem.read arg.toNat } ∧
        exec (.jump .mode3 arg) s = .next { s with pc := s.mem.read arg.toNat }) ∧
      (¬ ValidAddress arg →
        exec (.jump .indirect arg) s = .next (s.takeFault (.outOfRangeAddress arg)) ∧
        exec (.jump .mode3 arg) s = .next (s.takeFault (.outOfRangeAddress arg)))

/-- JMPZ: with `acc = 0` as JUMP; else it only advances, with no data access, so nothing is range-checked (that
no access is made is the spec's decision D13). -/
def Obligations.JmpzJumpsOnZero : Prop :=
  ∀ arg : Word,
    (decode 0x21 arg = .ok (.jmpz .direct arg) ∧ decode 0x22 arg = .ok (.jmpz .immediate arg) ∧
      decode 0x24 arg = .ok (.jmpz .indirect arg) ∧ decode 0x27 arg = .ok (.jmpz .mode3 arg)) ∧
    ∀ s : State,
      (s.acc ≠ 0 → ∀ m, exec (.jmpz m arg) s = .next { s with pc := s.pc + 1 }) ∧
      (s.acc = 0 →
        exec (.jmpz .direct arg) s = .next { s with pc := s.pc + arg } ∧
        exec (.jmpz .immediate arg) s = .next { s with pc := arg } ∧
        (ValidAddress arg →
          exec (.jmpz .indirect arg) s = .next { s with pc := s.pc + s.mem.read arg.toNat } ∧
          exec (.jmpz .mode3 arg) s = .next { s with pc := s.mem.read arg.toNat }) ∧
        (¬ ValidAddress arg →
          exec (.jmpz .indirect arg) s = .next (s.takeFault (.outOfRangeAddress arg)) ∧
          exec (.jmpz .mode3 arg) s = .next (s.takeFault (.outOfRangeAddress arg))))

/-- R125: ADD. The wrap of a sum that does not fit is written in R125; the spec's reason for it is its decision
D3. -/
def Obligations.AddAddsOperand : Prop :=
  ∀ arg : Word,
    (decode 0x28 arg = .ok (.add .direct arg) ∧ decode 0x2B arg = .ok (.add .immediate arg) ∧
      decode 0x2D arg = .ok (.add .indirect arg) ∧ decode 0x2E arg = .ok (.add .mode3 arg)) ∧
    ∀ (s : State) (f : Form),
      (∀ v, OperandIs f arg s v →
        exec (.add f.mode arg) s = .next { s with acc := s.acc + v, pc := s.pc + 1 }) ∧
      (∀ a, OperandOutOfRange f arg s a → exec (.add f.mode arg) s = .next (s.takeFault (.outOfRangeAddress a))) ∧
      exec (.add .mode3 arg) s = .next (s.takeFault (.illegalAddressingMode 0x5 .mode3))

/-- R126: SUB. The wrap is written in R126; the spec's reason for it is its decision D3. -/
def Obligations.SubSubtractsOperand : Prop :=
  ∀ arg : Word,
    (decode 0x30 arg = .ok (.sub .direct arg) ∧ decode 0x33 arg = .ok (.sub .immediate arg) ∧
      decode 0x35 arg = .ok (.sub .indirect arg) ∧ decode 0x36 arg = .ok (.sub .mode3 arg)) ∧
    ∀ (s : State) (f : Form),
      (∀ v, OperandIs f arg s v →
        exec (.sub f.mode arg) s = .next { s with acc := s.acc - v, pc := s.pc + 1 }) ∧
      (∀ a, OperandOutOfRange f arg s a → exec (.sub f.mode arg) s = .next (s.takeFault (.outOfRangeAddress a))) ∧
      exec (.sub .mode3 arg) s = .next (s.takeFault (.illegalAddressingMode 0x6 .mode3))

/-- R127: MUL keeps the low W bits of the product. The wrap is written in R127; the spec's reason for it is its
decision D3. -/
def Obligations.MulMultipliesOperand : Prop :=
  ∀ arg : Word,
    (decode 0x39 arg = .ok (.mul .direct arg) ∧ decode 0x3A arg = .ok (.mul .immediate arg) ∧
      decode 0x3C arg = .ok (.mul .indirect arg) ∧ decode 0x3F arg = .ok (.mul .mode3 arg)) ∧
    ∀ (s : State) (f : Form),
      (∀ v, OperandIs f arg s v →
        exec (.mul f.mode arg) s = .next { s with acc := s.acc * v, pc := s.pc + 1 }) ∧
      (∀ a, OperandOutOfRange f arg s a → exec (.mul f.mode arg) s = .next (s.takeFault (.outOfRangeAddress a))) ∧
      exec (.mul .mode3 arg) s = .next (s.takeFault (.illegalAddressingMode 0x7 .mode3))

/-- R128: DIV divides by a non-zero operand and raises DivideByZero on a zero one, after the operand has been
resolved. The truncation and the wrap are written in R128; the spec's reasons are its decisions D3 and D4. -/
def Obligations.DivDividesByOperand : Prop :=
  ∀ arg : Word,
    (decode 0x41 arg = .ok (.div .direct arg) ∧ decode 0x42 arg = .ok (.div .immediate arg) ∧
      decode 0x44 arg = .ok (.div .indirect arg) ∧ decode 0x47 arg = .ok (.div .mode3 arg)) ∧
    ∀ (s : State) (f : Form),
      (∀ v, OperandIs f arg s v → v ≠ 0 → exec (.div f.mode arg) s =
        .next { s with acc := wrap (Int.tdiv s.acc.toInt v.toInt), pc := s.pc + 1 }) ∧
      (OperandIs f arg s 0 → exec (.div f.mode arg) s = .next (s.takeFault (.divideByZero f.mode))) ∧
      (∀ a, OperandOutOfRange f arg s a → exec (.div f.mode arg) s = .next (s.takeFault (.outOfRangeAddress a))) ∧
      exec (.div .mode3 arg) s = .next (s.takeFault (.illegalAddressingMode 0x8 .mode3))

/-- AND: logical, its operand always resolved (no short circuit is the spec's decision D8). -/
def Obligations.AndIsLogical : Prop :=
  ∀ arg : Word,
    (decode 0x48 arg = .ok (.logAnd .direct arg) ∧ decode 0x4B arg = .ok (.logAnd .immediate arg) ∧
      decode 0x4D arg = .ok (.logAnd .indirect arg) ∧ decode 0x4E arg = .ok (.logAnd .mode3 arg)) ∧
    ∀ s : State,
      (∀ (f : Form) (v : Word), f ≠ .indirect → OperandIs f arg s v → exec (.logAnd f.mode arg) s =
        .next { s with acc := if s.acc ≠ 0 ∧ v ≠ 0 then 1 else 0, pc := s.pc + 1 }) ∧
      (¬ ValidAddress arg → exec (.logAnd .direct arg) s = .next (s.takeFault (.outOfRangeAddress arg))) ∧
      exec (.logAnd .indirect arg) s = .next (s.takeFault (.illegalAddressingMode 0x9 .indirect)) ∧
      exec (.logAnd .mode3 arg) s = .next (s.takeFault (.illegalAddressingMode 0x9 .mode3))

/-- R141: NOT: logical; `arg` ignored; the mode must be direct. -/
def Obligations.NotIsLogical : Prop :=
  ∀ arg : Word,
    (decode 0x50 arg = .ok (.logNot .direct arg) ∧ decode 0x53 arg = .ok (.logNot .immediate arg) ∧
      decode 0x55 arg = .ok (.logNot .indirect arg) ∧ decode 0x56 arg = .ok (.logNot .mode3 arg)) ∧
    ∀ s : State,
      exec (.logNot .direct arg) s =
        .next { s with acc := if s.acc = 0 then 1 else 0, pc := s.pc + 1 } ∧
      ∀ m, m ≠ .direct → exec (.logNot m arg) s = .next (s.takeFault (.illegalAddressingMode 0xA m))

/-- R142: CMPL tests the cell, signed, against zero. -/
def Obligations.CmplTestsCellNegative : Prop :=
  ∀ arg : Word,
    (decode 0x59 arg = .ok (.cmpl .direct arg) ∧ decode 0x5A arg = .ok (.cmpl .immediate arg) ∧
      decode 0x5C arg = .ok (.cmpl .indirect arg) ∧ decode 0x5F arg = .ok (.cmpl .mode3 arg)) ∧
    ∀ s : State,
      (ValidAddress arg → exec (.cmpl .direct arg) s =
        .next { s with acc := if (s.mem.read arg.toNat).toInt < 0 then 1 else 0, pc := s.pc + 1 }) ∧
      (¬ ValidAddress arg → exec (.cmpl .direct arg) s = .next (s.takeFault (.outOfRangeAddress arg))) ∧
      ∀ m, m ≠ .direct → exec (.cmpl m arg) s = .next (s.takeFault (.illegalAddressingMode 0xB m))

/-- R143: CMPZ tests the cell for zero. -/
def Obligations.CmpzTestsCellZero : Prop :=
  ∀ arg : Word,
    (decode 0x60 arg = .ok (.cmpz .direct arg) ∧ decode 0x63 arg = .ok (.cmpz .immediate arg) ∧
      decode 0x65 arg = .ok (.cmpz .indirect arg) ∧ decode 0x66 arg = .ok (.cmpz .mode3 arg)) ∧
    ∀ s : State,
      (ValidAddress arg → exec (.cmpz .direct arg) s =
        .next { s with acc := if s.mem.read arg.toNat = 0 then 1 else 0, pc := s.pc + 1 }) ∧
      (¬ ValidAddress arg → exec (.cmpz .direct arg) s = .next (s.takeFault (.outOfRangeAddress arg))) ∧
      ∀ m, m ≠ .direct → exec (.cmpz m arg) s = .next (s.takeFault (.illegalAddressingMode 0xC m))

/-- FOR in one cycle: with both counts positive it pushes its frame and goes to its body; otherwise it changes
nothing. The frame is the loop stack formulation, which the spec marks as derived (notes/assumptions/4.md). -/
def Obligations.ForStartsLoopOrSpins : Prop :=
  ∀ arg : Word,
    (decode 0x69 arg = .ok (.forLoop .direct arg) ∧ decode 0x6A arg = .ok (.forLoop .immediate arg) ∧
      decode 0x6C arg = .ok (.forLoop .indirect arg) ∧ decode 0x6F arg = .ok (.forLoop .mode3 arg)) ∧
    ∀ s : State,
      (∀ (f : Form) (v : Word), f ≠ .indirect → OperandIs f arg s v →
        (0 ≤ v.toInt → 0 < v.toNat % 4096 → 0 < v.toNat / 4096 →
          exec (.forLoop f.mode arg) s = .next { s with
            pc := s.pc + 1
            loopStack := ⟨s.pc + 1, v.toNat / 4096, v.toNat / 4096, v.toNat % 4096⟩ :: s.loopStack }) ∧
        (v.toInt < 0 ∨ v.toNat % 4096 = 0 ∨ v.toNat / 4096 = 0 →
          exec (.forLoop f.mode arg) s = .next s)) ∧
      (¬ ValidAddress arg → exec (.forLoop .direct arg) s = .next (s.takeFault (.outOfRangeAddress arg))) ∧
      exec (.forLoop .indirect arg) s = .next (s.takeFault (.illegalAddressingMode 0xD .indirect)) ∧
      exec (.forLoop .mode3 arg) s = .next (s.takeFault (.illegalAddressingMode 0xD .mode3))

/-- A top-level FOR with a count that is not positive completes with no state change whatever, so the
engine executes it again on every later cycle and raises nothing. That a negative
word is such a count is the spec's decision D5 (90_conflicts.md C6, notes/assumptions/8.md). -/
def Obligations.NonIteratingForSpins : Prop :=
  ∀ (s : State) (f : Form) (arg v : Word), s.running = true → s.loopStack = [] →
    fetchInstr s = .ok (.forLoop f.mode arg) → f ≠ .indirect → OperandIs f arg s v →
    (v.toInt < 0 ∨ v.toNat % 4096 = 0 ∨ v.toNat / 4096 = 0) →
    raisedBy s = none ∧ step s = .next s ∧ ∀ k, Host.Core.run core k s = .next s

/-- HALT clears the running flag, abandons every FOR in progress, and leaves everything else, `pc` included, as it
is; other modes than direct are illegal. That `pc` stays and that a HALT inside a FOR ends it are the spec's
decisions D10 and D11. -/
def Obligations.HaltStopsEngine : Prop :=
  ∀ arg : Word,
    (decode 0x78 arg = .ok (.halt .direct arg) ∧ decode 0x7B arg = .ok (.halt .immediate arg) ∧
      decode 0x7D arg = .ok (.halt .indirect arg) ∧ decode 0x7E arg = .ok (.halt .mode3 arg)) ∧
    ∀ s : State,
      exec (.halt .direct arg) s = .next { s with running := false, loopStack := [] } ∧
      ∀ m, m ≠ .direct → exec (.halt m arg) s = .next (s.takeFault (.illegalAddressingMode 0xF m))

/-- Opcode 0xE in any mode, and a word of even parity with bit 7 set, raise UndefinedOpcode with the opcode, and
nothing else does; the assembler writes no word of opcode 0xE. That opcodes 16 to 31 raise it is the spec's decision
D6 (notes/assumptions/10.md). -/
def Obligations.UndefinedOpcodesRaise : Prop :=
  (∀ arg : Word, decode 0x71 arg = .ok (.unused0E .direct arg) ∧ decode 0x72 arg = .ok (.unused0E .immediate arg) ∧
    decode 0x74 arg = .ok (.unused0E .indirect arg) ∧ decode 0x77 arg = .ok (.unused0E .mode3 arg)) ∧
  (∀ (m : Mode) (arg : Word) (s : State),
    exec (.unused0E m arg) s = .next (s.takeFault (.undefinedOpcode 14))) ∧
  (∀ s : State, s.running = true → ValidAddress s.pc → checkParity (s.codeOp.read s.pc.toNat) = true →
    (s.codeOp.read s.pc.toNat).toNat / 8 = 14 ∨ 16 ≤ (s.codeOp.read s.pc.toNat).toNat / 8 →
    step s = .next (s.takeFault (.undefinedOpcode (BitVec.ofNat 5 ((s.codeOp.read s.pc.toNat).toNat / 8))))) ∧
  (∀ (s : State) (oc : BitVec 5), raisedBy s = some (.undefinedOpcode oc) →
    ValidAddress s.pc ∧ checkParity (s.codeOp.read s.pc.toNat) = true ∧
    oc.toNat = (s.codeOp.read s.pc.toNat).toNat / 8 ∧ (oc = 14 ∨ 16 ≤ oc.toNat)) ∧
  ∀ (n : Mnemonic) (a : Option (Marker × Word)) (w : Byte × Word), assembleLine n a = some w →
    ∀ (m : Mode) (arg : Word), decode w.1 w.2 ≠ .ok (.unused0E m arg)

/-! ### Conditions -/

/-- A cycle that raises a condition writes the two fault registers, halts the engine, abandons every FOR and
changes nothing else; the top-level step ends and reports the condition. The two registers and what they hold are the
spec's decisions D14 and D24, the precise state its decision D9 (notes/assumptions/13.md). -/
def Obligations.FaultAction : Prop :=
  ∀ (s : State) (c : Condition), raisedBy s = some c →
    step s = .next { s with
      faultCause := c.code, faultInfo := c.info s.pc, running := false, loopStack := [] } ∧
    ∀ k, ∃ t, topStep (k + 1) s = some (t, some c) ∧ step s = .next t

/-- The code and the record of each condition: the spec's decisions D14 and D24. -/
def Obligations.ConditionCodesAndRecords : Prop :=
  ∀ (pc a : Word) (m : Mode) (oc : BitVec 4) (oc5 : BitVec 5),
    Condition.corruptedInstruction.code = 1 ∧ (Condition.illegalAddressingMode oc m).code = 2 ∧
    (Condition.divideByZero m).code = 3 ∧ (Condition.undefinedOpcode oc5).code = 4 ∧
    (Condition.outOfRangeAddress a).code = 5 ∧
    Condition.corruptedInstruction.info pc = ⟨pc, 0, 0⟩ ∧
    (Condition.illegalAddressingMode oc m).info pc = ⟨pc, oc.setWidth 5, m.bits⟩ ∧
    (Condition.divideByZero m).info pc = ⟨pc, 8, m.bits⟩ ∧
    (Condition.undefinedOpcode oc5).info pc = ⟨pc, oc5, 0⟩ ∧
    (Condition.outOfRangeAddress a).info pc = ⟨a, 0, 0⟩

/-- R173: exactly the listed 26 pairs of opcode and mode raise IllegalAddressingMode, naming the pair. -/
def Obligations.IllegalModesRaise : Prop :=
  let pairs : List (BitVec 4 × Mode) :=
    [(0, .immediate), (0, .indirect), (0, .mode3), (1, .mode3), (2, .immediate), (2, .mode3), (5, .mode3),
     (6, .mode3), (7, .mode3), (8, .mode3), (9, .indirect), (9, .mode3), (10, .immediate), (10, .indirect),
     (10, .mode3), (11, .immediate), (11, .indirect), (11, .mode3), (12, .immediate), (12, .indirect),
     (12, .mode3), (13, .indirect), (13, .mode3), (15, .immediate), (15, .indirect), (15, .mode3)]
  pairs.length = 26 ∧
  (∀ (i : Instr) (s : State), (i.opcode, i.mode) ∈ pairs →
    exec i s = .next (s.takeFault (.illegalAddressingMode i.opcode i.mode))) ∧
  (∀ (i : Instr) (s : State) (oc : BitVec 4) (m : Mode),
    handle i s = .error (.illegalAddressingMode oc m) → (oc, m) ∈ pairs ∧ oc = i.opcode ∧ m = i.mode) ∧
  ∀ i : Instr, i.wellFormed = false ↔ (i.opcode, i.mode) ∈ pairs ∨ i.opcode = 14

/-- DivideByZero is raised by DIV alone, in any of its three modes, exactly when the resolved divisor is 0;
the engine halts and the accumulator is left as it was. The recorded code 3 is the spec's decision D14 (R170,
notes/assumptions/13.md). -/
def Obligations.DivideByZeroOnlyByDiv : Prop :=
  (∀ (i : Instr) (s : State) (m : Mode), handle i s = .error (.divideByZero m) ↔
    ∃ (f : Form) (arg : Word), i = .div m arg ∧ f.mode = m ∧ OperandIs f arg s 0) ∧
  ∀ (f : Form) (arg : Word) (s : State), OperandIs f arg s 0 →
    ∃ t, exec (.div f.mode arg) s = .next t ∧ t.running = false ∧ t.acc = s.acc ∧ t.faultCause = 3

/-- R176: an OutOfRangeAddress names an index that is out of range, and the index is `pc` for a fetch, `arg` for
the first access of the instruction, or `Mem[arg]` for its second; an invalid `pc` raises nothing else; each of the
three accesses raises it exactly when its index is out of range. -/
def Obligations.OutOfRangeNamesOffendingIndex : Prop :=
  (∀ (s : State) (a : Word), raisedBy s = some (.outOfRangeAddress a) → ¬ ValidAddress a ∧
    (a = s.pc ∨ ∃ i, ValidAddress s.pc ∧ fetchInstr s = .ok i ∧
      (a = i.arg ∨ (ValidAddress i.arg ∧ a = s.mem.read i.arg.toNat)))) ∧
  (∀ s : State, s.running = true → ¬ ValidAddress s.pc → raisedBy s = some (.outOfRangeAddress s.pc)) ∧
  ∀ (s : State) (a v : Word), (codeRead a s = .error (.outOfRangeAddress a) ↔ ¬ ValidAddress a) ∧
    (memRead a s = .error (.outOfRangeAddress a) ↔ ¬ ValidAddress a) ∧
    (memWrite a v s = .error (.outOfRangeAddress a) ↔ ¬ ValidAddress a)

/-- The order of the checks within one Step, first failing check wins: fetch range, parity, opcode, mode; and for
DIV indirect, where all of them can meet, first access, second access, zero divisor. The order is the spec's
decision D8. -/
def Obligations.PriorityOfConditions : Prop :=
  (∀ s : State, s.running = true →
    (¬ ValidAddress s.pc → raisedBy s = some (.outOfRangeAddress s.pc)) ∧
    (ValidAddress s.pc → checkParity (s.codeOp.read s.pc.toNat) = false →
      raisedBy s = some .corruptedInstruction) ∧
    (ValidAddress s.pc → checkParity (s.codeOp.read s.pc.toNat) = true →
      (s.codeOp.read s.pc.toNat).toNat / 8 = 14 ∨ 16 ≤ (s.codeOp.read s.pc.toNat).toNat / 8 →
      raisedBy s = some (.undefinedOpcode (BitVec.ofNat 5 ((s.codeOp.read s.pc.toNat).toNat / 8)))) ∧
    ∀ i, fetchInstr s = .ok i → i.opcode ≠ 14 → i.wellFormed = false →
      raisedBy s = some (.illegalAddressingMode i.opcode i.mode)) ∧
  ∀ (s : State) (arg : Word), s.running = true → fetchInstr s = .ok (.div .indirect arg) →
    raisedBy s =
      if ¬ ValidAddress arg then some (.outOfRangeAddress arg)
      else if ¬ ValidAddress (s.mem.read arg.toNat) then some (.outOfRangeAddress (s.mem.read arg.toNat))
      else if s.mem.read (s.mem.read arg.toNat).toNat = 0 then some (.divideByZero .indirect)
      else none

/-- The fault registers are sticky: a cycle that raises nothing keeps both, and so does every host move but `clear`
and reset (the spec's decision D14). -/
def Obligations.FaultRegistersAreSticky : Prop :=
  (∀ s t : State, raisedBy s = none → step s = .next t →
    t.faultCause = s.faultCause ∧ t.faultInfo = s.faultInfo) ∧
  ∀ (op : HostOp) (s t : State), op ≠ .reset → op ≠ .clear → hostMove op s = .ok t →
    t.faultCause = s.faultCause ∧ t.faultInfo = s.faultInfo

/-- A running engine stops in exactly two ways: HALT in direct mode, with `pc` at it and nothing recorded, or a
condition, with its code recorded and `pc` at the faulting instruction (where `pc` stands is the spec's decisions
D9 and D10). -/
def Obligations.EngineStopsByHaltOrFault : Prop :=
  ∀ s t : State, s.running = true → step s = .next t → t.running = false →
    ((∃ arg, fetchInstr s = .ok (.halt .direct arg)) ∧ raisedBy s = none ∧
      t = { s with running := false, loopStack := [] }) ∨
    (∃ c, raisedBy s = some c ∧ t.faultCause = c.code ∧ c.code ≠ 0 ∧ t.pc = s.pc ∧ t.acc = s.acc ∧
      t.mem = s.mem ∧ t.changedIndex = s.changedIndex)

/-! ### Frames and rules of the whole machine -/

/-- Only LOD, ADD, SUB, MUL, DIV, AND, NOT, CMPL and CMPZ write the accumulator. -/
def Obligations.OnlyNamedInstructionsWriteAcc : Prop :=
  ∀ (i : Instr) (s t : State), exec i s = .next t → t.acc ≠ s.acc →
    ∃ (m : Mode) (arg : Word), i = .lod m arg ∨ i = .add m arg ∨ i = .sub m arg ∨ i = .mul m arg ∨
      i = .div m arg ∨ i = .logAnd m arg ∨ i = .logNot m arg ∨ i = .cmpl m arg ∨ i = .cmpz m arg

/-- The frame of every instruction but STO: all of Memory, `changed_index` and the Code Store stay; while it
raises nothing, the fault registers stay too. -/
def Obligations.NonStoringInstructionsKeepMemory : Prop :=
  ∀ (i : Instr) (s t : State), (∀ m arg, i ≠ .sto m arg) → exec i s = .next t →
    (∀ a, t.mem.read a = s.mem.read a) ∧ t.changedIndex = s.changedIndex ∧
    (∀ a, t.codeOp.read a = s.codeOp.read a ∧ t.codeArg.read a = s.codeArg.read a) ∧
    ((∃ u, handle i s = .ok u) → t.faultCause = s.faultCause ∧ t.faultInfo = s.faultInfo)

/-- The frame of STO: where `storeTarget` gives the target, every other cell reads as before, and the accumulator
and the Code Store stay; where it gives none, or the target is out of range, every cell reads as before. -/
def Obligations.StoWritesOnlyItsTarget : Prop :=
  ∀ (m : Mode) (arg : Word) (s t : State), exec (.sto m arg) s = .next t →
    (∀ a, storeTarget m arg s = .ok a → ∀ b, b ≠ a.toNat → t.mem.read b = s.mem.read b) ∧
    (∀ a, storeTarget m arg s = .ok a → ¬ ValidAddress a →
      (∀ b, t.mem.read b = s.mem.read b) ∧ t.changedIndex = s.changedIndex) ∧
    (∀ c, storeTarget m arg s = .error c →
      (∀ b, t.mem.read b = s.mem.read b) ∧ t.changedIndex = s.changedIndex) ∧
    (∀ a, storeTarget m arg s = .ok a → ValidAddress a → s.mem.wf = true →
      t.mem.read a.toNat = s.acc ∧ t.changedIndex = a) ∧
    t.acc = s.acc ∧ t.codeOp = s.codeOp ∧ t.codeArg = s.codeArg

/-- No cycle writes the Code Store, which only the host does, and no cycle sets the running flag. -/
def Obligations.CyclesNeverWriteCodeNorStartEngine : Prop :=
  ∀ s t : State, step s = .next t →
    t.codeOp = s.codeOp ∧ t.codeArg = s.codeArg ∧ (t.running = true → s.running = true)

/-- The fault registers and `changed_index` are records for the host only: two states that differ in nothing else
raise the same and step to states that differ in nothing else. -/
def Obligations.RecordsNeverSteerExecution : Prop :=
  ∀ s u t v : State,
    { s with faultCause := u.faultCause, faultInfo := u.faultInfo, changedIndex := u.changedIndex } = u →
    step s = .next t → step u = .next v →
    raisedBy s = raisedBy u ∧
    { t with faultCause := v.faultCause, faultInfo := v.faultInfo, changedIndex := v.changedIndex } = v

/-- The machine's invariant holds after reset. -/
def Obligations.InvAtReset : Prop := StateInv State.reset

/-- Every cycle keeps the machine's invariant: canonical stores within their bounds, every frame within its
bounds, no FOR in progress on a halted engine, a known fault code, `changed_index` -1 or valid. The bounds of
frames and the codes are in rules the spec marks as decisions (D14, D17, D23). -/
def Obligations.InvKeptByEveryCycle : Prop :=
  ∀ s t : State, StateInv s → step s = .next t → StateInv t

/-- Every host move keeps the invariant, and so does a whole boot. -/
def Obligations.InvKeptByHostMoves : Prop :=
  (∀ (op : HostOp) (s t : State), StateInv s → hostMove op s = .ok t → StateInv t) ∧
  ∀ (code : List (Byte × Word)) (data : List (Int × Word)) (s t : State),
    boot code data s = .ok t → StateInv t

/-! ### FOR and the loop stack -/

/-- The split of a count word: for a word that is not negative, bits 11..0 and bits 30..12, within the stated
bounds; for a negative one both counts are not positive (truncation is the spec's decision D5). -/
def Obligations.CountWordSplit : Prop :=
  ∀ v : Word,
    (0 ≤ v.toInt →
      (splitCount v).1 = ((v.extractLsb' 0 12).toNat : Int) ∧ (splitCount v).2 = ((v.extractLsb' 12 19).toNat : Int) ∧
      (splitCount v).1 = v.toInt - 4096 * (splitCount v).2 ∧ 0 ≤ (splitCount v).1 ∧ (splitCount v).1 ≤ 4095 ∧
      0 ≤ (splitCount v).2 ∧ (splitCount v).2 ≤ 524287) ∧
    (v.toInt < 0 → (splitCount v).1 ≤ 0 ∧ (splitCount v).2 ≤ 0 ∧
      (splitCount v).1 = v.toInt - 4096 * (splitCount v).2)

/-- `Complete()` counts one Step of the innermost FOR: with more than one Step of it left, one fewer is left, and
`pc` goes to its body exactly when a pass ends; with one left, its frame goes and the Step is credited to the FOR
below. Derived by the spec from the recursive definition. -/
def Obligations.CompleteCreditsOneStep : Prop :=
  ∀ (s : State) (f : Frame) (r : List Frame), s.loopStack = f :: r → Frame.ok f →
    (1 < (f.oLeft - 1) * f.inner + f.jLeft →
      ∃ g, s.complete = { s with pc := if f.jLeft = 1 then f.bodyStart else s.pc, loopStack := g :: r } ∧
        (g.oLeft - 1) * g.inner + g.jLeft + 1 = (f.oLeft - 1) * f.inner + f.jLeft ∧
        g.bodyStart = f.bodyStart ∧ g.inner = f.inner ∧ Frame.ok g) ∧
    ((f.oLeft - 1) * f.inner + f.jLeft = 1 → s.complete = State.complete { s with loopStack := r })

/-- The loop-stack machine refines the recursive definition of FOR and is refined by it: from a state with no FOR
in progress, a top-level Step ends in `t` by cycles exactly when it ends in `t` by recursion. -/
def Obligations.LoopStackEquivalentToRecursion : Prop :=
  ∀ s t : State, s.loopStack = [] → (TopStepsTo s t ↔ RecStepsTo s t)

/-- A top-level Step has at most one end, with one report, and leaves no FOR in progress, so the host never sees
one (the spec's decision D22). -/
def Obligations.TopLevelStepEndsOnce : Prop :=
  (∀ (s t u : State) (j k : Nat) (r q : Option Condition),
    topStep j s = some (t, r) → topStep k s = some (u, q) → t = u ∧ r = q) ∧
  ∀ (s t : State) (k : Nat) (r : Option Condition), StateInv s → topStep k s = some (t, r) → t.loopStack = []

/-! ### Arithmetic laws -/

/-- The laws of wrapped arithmetic: SUB undoes ADD; associativity; subtraction as addition of the wrapped
negative. They rest on the spec's decision D3. -/
def Obligations.WrapLaws : Prop :=
  (∀ (s : State) (v : Word), ∃ t u, exec (.add .immediate v) s = .next t ∧
    exec (.sub .immediate v) t = .next u ∧ u.acc = s.acc) ∧
  (∀ a b c : Int, wrap ((wrap (a + b)).toInt + c) = wrap (a + (wrap (b + c)).toInt)) ∧
  (∀ a b : Int, wrap (a - b) = wrap (a + (wrap (-b)).toInt)) ∧
  ∀ a : Int, (wrap a).toInt = a ↔ -(2 ^ (W - 1) : Int) ≤ a ∧ a < 2 ^ (W - 1)

/-- DIV truncates toward zero: the quotient's magnitude is the floor of the magnitudes' quotient and its sign is
positive when the signs agree; the one quotient that does not fit gives the dividend back. Decisions D3 and D4. -/
def Obligations.DivTruncatesTowardZero : Prop :=
  ∀ (s : State) (v : Word), v ≠ 0 → ∃ t, exec (.div .immediate v) s = .next t ∧
    (¬ (s.acc.toInt = -(2 ^ (W - 1) : Int) ∧ v.toInt = -1) →
      t.acc.toInt.natAbs = s.acc.toInt.natAbs / v.toInt.natAbs ∧
      (0 < t.acc.toInt → (0 < s.acc.toInt ↔ 0 < v.toInt)) ∧
      (t.acc.toInt < 0 → ¬ (0 < s.acc.toInt ↔ 0 < v.toInt))) ∧
    (s.acc.toInt = -(2 ^ (W - 1) : Int) ∧ v.toInt = -1 → t.acc = s.acc)

/-- Register arithmetic never turns an out-of-range sum into a valid pc: from a valid `pc`, a wrapped sum that is
valid is the sum itself. It rests on MEM_SIZE <= 2^(W-1). -/
def Obligations.WrappedPcIsExactWhenValid : Prop :=
  ∀ p d : Word, ValidAddress p → ValidAddress (wrap (p.toInt + d.toInt)) →
    (wrap (p.toInt + d.toInt)).toInt = p.toInt + d.toInt

/-! ### The host -/

/-- `clear` gives the reset contents and leaves `running` as it is (the spec's decision D15). -/
def Obligations.ClearKeepsOnlyRunning : Prop :=
  ∀ s : State, s.loopStack = [] →
    hostMove .clear s = .ok { State.reset with running := s.running }

/-- `set_running` sets the flag to the value given and changes nothing else; `is_running` returns it; setting
it after a HALT or a fault re-executes the HALT or the faulting instruction, with the same result. That it happens again rests on where `pc`
stands, the spec's decisions D10 and D9 (notes/assumptions/9.md, 13.md), and is the spec's inference. -/
def Obligations.SetRunningSetsOnlyTheFlag : Prop :=
  (∀ (s : State) (b : Bool), s.loopStack = [] →
    hostMove (.setRunning b) s = .ok { s with running := b } ∧ isRunning s = .ok s.running) ∧
  (∀ (s t : State) (c : Condition), raisedBy s = some c → step s = .next t →
    raisedBy (t.setRunning true) = some c ∧ step (t.setRunning true) = .next t) ∧
  ∀ (s t : State) (arg : Word), s.running = true → fetchInstr s = .ok (.halt .direct arg) → step s = .next t →
    fetchInstr (t.setRunning true) = .ok (.halt .direct arg) ∧ step (t.setRunning true) = .next t

/-- `set_data` and `set_code` in range write their cell alone, unchecked, and `get_data` reads it; out of range
all three are refused with the index, which is the spec's decision D18. -/
def Obligations.HostAccessesOneCell : Prop :=
  ∀ (s : State) (i : Int) (v : Word) (op : Byte), StateInv s → s.loopStack = [] →
    (0 ≤ i ∧ i < (Config.memSize : Int) →
      (∃ t, hostMove (.setData i v) s = .ok t ∧ t.mem.read i.toNat = v ∧ getData i t = .ok v ∧
        t.changedIndex.toInt = i ∧ (∀ b, b ≠ i.toNat → t.mem.read b = s.mem.read b) ∧
        t = { s with mem := t.mem, changedIndex := t.changedIndex }) ∧
      (∃ t, hostMove (.setCode i op v) s = .ok t ∧ t.codeOp.read i.toNat = op ∧ t.codeArg.read i.toNat = v ∧
        (∀ b, b ≠ i.toNat → t.codeOp.read b = s.codeOp.read b ∧ t.codeArg.read b = s.codeArg.read b) ∧
        t = { s with codeOp := t.codeOp, codeArg := t.codeArg })) ∧
    (¬ (0 ≤ i ∧ i < (Config.memSize : Int)) →
      hostMove (.setData i v) s = .error (.outOfRangeAddress i) ∧
      hostMove (.setCode i op v) s = .error (.outOfRangeAddress i) ∧
      getData i s = .error (.outOfRangeAddress i))

/-- While a FOR is in progress the host has no operation but reset: every move, every read, the step and the boot are
refused (the spec's decision D18, notes/assumptions/11.md). Between top-level Steps each read answers its register
and the step is one top-level Step. -/
def Obligations.NoHostMoveDuringStep : Prop :=
  (∀ s : State, s.loopStack ≠ [] →
    (∀ op : HostOp, op ≠ .reset → hostMove op s = .error .stepInProgress) ∧
    (∀ i : Int, getData i s = .error .stepInProgress) ∧
    getAccumulator s = .error .stepInProgress ∧ getPc s = .error .stepInProgress ∧
    getChangedIndex s = .error .stepInProgress ∧ getFault s = .error .stepInProgress ∧
    isRunning s = .error .stepInProgress ∧ (∀ cycles : Nat, hostStep cycles s = .error .stepInProgress) ∧
    ∀ (code : List (Byte × Word)) (data : List (Int × Word)), boot code data s = .error .stepInProgress) ∧
  ∀ s : State, s.loopStack = [] →
    getAccumulator s = .ok s.acc.toInt ∧ getPc s = .ok s.pc.toInt ∧
    getChangedIndex s = .ok s.changedIndex.toInt ∧ getFault s = .ok (s.faultCause, s.faultInfo) ∧
    isRunning s = .ok s.running ∧ ∀ cycles : Nat, hostStep cycles s = .ok (topStep cycles s)

/-- Booting a program that fits, between top-level Steps, leaves it in the Code Store line by line, with `pc` at
entry 0, `acc` 0, no fault recorded and the engine running; entries beyond it are NOP words (0, 0). -/
def Obligations.BootLoadsProgram : Prop :=
  ∀ (code : List (Byte × Word)) (s : State), s.loopStack = [] → code.length ≤ Config.memSize →
    ∃ t, boot code [] s = .ok t ∧ t.pc = 0 ∧ t.acc = 0 ∧ t.running = true ∧ t.faultCause = 0 ∧
      (∀ k, t.codeOp.read k = (code[k]?.getD (0, 0)).1 ∧ t.codeArg.read k = (code[k]?.getD (0, 0)).2) ∧
      ∀ a, t.mem.read a = 0
end

