-- ==== Sys2Proof/Laws/Memory.lean ====
section
/-! SUPPORT. The laws of a store: reading after writing, and the canonical form every write keeps. -/

namespace Sys2Proof.Machine

variable {w : Nat}

/-- The canonical form of a longer store: the first value is not 0, the first index is below every later one, and
the rest is in canonical form. -/
theorem Memory.wf_cons (a : Nat) (v : BitVec w) (m : Memory w) :
    Memory.wf ((a, v) :: m) = true ↔ v ≠ 0 ∧ (∀ c ∈ m, a < c.1) ∧ Memory.wf m = true := by
  induction m generalizing a v with
  | nil => simp [Memory.wf]
  | cons c m ih =>
    obtain ⟨b, u⟩ := c
    simp only [Memory.wf, Bool.and_eq_true, bne_iff_ne, ne_eq, decide_eq_true_eq, List.mem_cons,
      forall_eq_or_imp]
    rw [ih]
    constructor
    · rintro ⟨⟨hv, hab⟩, hu, hb, hm⟩
      exact ⟨hv, ⟨hab, fun c hc => Nat.lt_trans hab (hb c hc)⟩, hu, hb, hm⟩
    · rintro ⟨hv, ⟨hab, _⟩, hu, hb, hm⟩
      exact ⟨⟨hv, hab⟩, hu, hb, hm⟩

/-- An index that is below every listed one reads 0. -/
theorem Memory.read_of_lt {m : Memory w} {a : Nat} (h : ∀ c ∈ m, a < c.1) : m.read a = 0 := by
  induction m with
  | nil => rfl
  | cons c m ih =>
    obtain ⟨k, v⟩ := c
    have hk : a < k := h (k, v) (List.mem_cons_self ..)
    rw [Memory.read, if_neg (by omega)]
    exact ih fun c hc => h c (List.mem_cons_of_mem _ hc)

/-- What a write lists: the written index, or an index listed before. -/
theorem Memory.mem_write {m : Memory w} {a : Nat} {v : BitVec w} {c : Nat × BitVec w}
    (h : c ∈ m.write a v) : c.1 = a ∨ c ∈ m := by
  induction m with
  | nil =>
    unfold Memory.write at h
    split at h <;> simp_all
  | cons d m ih =>
    obtain ⟨k, u⟩ := d
    unfold Memory.write at h
    split at h
    · rcases List.mem_cons.1 h with rfl | h
      · simp
      · rcases ih h with h | h
        · exact .inl h
        · exact .inr (List.mem_cons_of_mem _ h)
    · split at h
      · split at h
        · exact .inr (List.mem_cons_of_mem _ h)
        · rcases List.mem_cons.1 h with rfl | h
          · exact .inl rfl
          · exact .inr (List.mem_cons_of_mem _ h)
      · split at h
        · exact .inr h
        · rcases List.mem_cons.1 h with rfl | h
          · exact .inl rfl
          · exact .inr h

/-- A write keeps the canonical form. -/
theorem Memory.write_wf {m : Memory w} (a : Nat) (v : BitVec w) (h : m.wf = true) :
    (m.write a v).wf = true := by
  induction m with
  | nil =>
    unfold Memory.write
    split <;> simp_all [Memory.wf]
  | cons d m ih =>
    obtain ⟨k, u⟩ := d
    obtain ⟨hu, hk, hm⟩ := (Memory.wf_cons k u m).1 h
    unfold Memory.write
    split
    · rename_i hka
      refine (Memory.wf_cons ..).2 ⟨hu, fun c hc => ?_, ih hm⟩
      rcases Memory.mem_write hc with h | h
      · omega
      · exact hk c h
    · split
      · rename_i _ hka
        split
        · exact hm
        · rename_i hv
          exact (Memory.wf_cons ..).2 ⟨hv, fun c hc => by have := hk c hc; omega, hm⟩
      · rename_i h1 h2
        split
        · exact h
        · rename_i hv
          refine (Memory.wf_cons ..).2 ⟨hv, fun c hc => ?_, h⟩
          rcases List.mem_cons.1 hc with rfl | hc
          · show a < k; omega
          · have := hk c hc; omega

/-- A write at an index in range keeps every listed index in range. -/
theorem Memory.write_bounded {m : Memory w} {a : Nat} (v : BitVec w) (ha : a < Config.memSize)
    (h : m.bounded = true) : (m.write a v).bounded = true := by
  simp only [Memory.bounded, List.all_eq_true, decide_eq_true_eq] at h ⊢
  intro c hc
  rcases Memory.mem_write hc with e | hc
  · omega
  · exact h c hc

/-- Reading elsewhere than where a write went. -/
theorem Memory.read_write_other (m : Memory w) {a b : Nat} (v : BitVec w) (h : b ≠ a) :
    (m.write a v).read b = m.read b := by
  induction m with
  | nil =>
    unfold Memory.write
    split
    · rfl
    · simp [Memory.read, Ne.symm h]
  | cons d m ih =>
    obtain ⟨k, u⟩ := d
    unfold Memory.write
    split
    · simp only [Memory.read, ih]
    · split
      · rename_i _ hka
        subst hka
        split <;> simp [Memory.read, Ne.symm h]
      · split
        · rfl
        · simp [Memory.read, Ne.symm h]

/-- Reading where a write went, in a store in canonical form. -/
theorem Memory.read_write_same {m : Memory w} (a : Nat) (v : BitVec w) (h : m.wf = true) :
    (m.write a v).read a = v := by
  induction m with
  | nil =>
    unfold Memory.write
    split <;> simp_all [Memory.read]
  | cons d m ih =>
    obtain ⟨k, u⟩ := d
    obtain ⟨hu, hk, hm⟩ := (Memory.wf_cons k u m).1 h
    unfold Memory.write
    split
    · rw [Memory.read, if_neg (by omega), ih hm]
    · split
      · rename_i _ hka
        subst hka
        split
        · rename_i hv
          rw [Memory.read_of_lt hk, hv]
        · simp [Memory.read]
      · split
        · rename_i h1 h2 hv
          rw [Memory.read, if_neg (by omega), hv]
          exact Memory.read_of_lt fun c hc => by have := hk c hc; omega
        · simp [Memory.read]

theorem State.reset_mem_wf : State.reset.mem.wf = true := rfl
theorem State.reset_codeOp_wf : State.reset.codeOp.wf = true := rfl
theorem State.reset_codeArg_wf : State.reset.codeArg.wf = true := rfl

end Sys2Proof.Machine
end

