-- ==== Sys2Proof/Laws/State.lean ====
section
/-! SUPPORT. One lemma per field per named update of the state, each true by rfl. -/

namespace Sys2Proof.Machine

@[simp] theorem State.setAcc_acc (s : State) (v : Word) : (s.setAcc v).acc = v := rfl
@[simp] theorem State.setAcc_pc (s : State) (v : Word) : (s.setAcc v).pc = s.pc := rfl
@[simp] theorem State.setAcc_running (s : State) (v : Word) : (s.setAcc v).running = s.running := rfl
@[simp] theorem State.setAcc_faultCause (s : State) (v : Word) : (s.setAcc v).faultCause = s.faultCause := rfl
@[simp] theorem State.setAcc_faultInfo (s : State) (v : Word) : (s.setAcc v).faultInfo = s.faultInfo := rfl
@[simp] theorem State.setAcc_mem (s : State) (v : Word) : (s.setAcc v).mem = s.mem := rfl
@[simp] theorem State.setAcc_codeOp (s : State) (v : Word) : (s.setAcc v).codeOp = s.codeOp := rfl
@[simp] theorem State.setAcc_codeArg (s : State) (v : Word) : (s.setAcc v).codeArg = s.codeArg := rfl
@[simp] theorem State.setAcc_changedIndex (s : State) (v : Word) : (s.setAcc v).changedIndex = s.changedIndex := rfl
@[simp] theorem State.setAcc_loopStack (s : State) (v : Word) : (s.setAcc v).loopStack = s.loopStack := rfl

@[simp] theorem State.setPc_acc (s : State) (v : Word) : (s.setPc v).acc = s.acc := rfl
@[simp] theorem State.setPc_pc (s : State) (v : Word) : (s.setPc v).pc = v := rfl
@[simp] theorem State.setPc_running (s : State) (v : Word) : (s.setPc v).running = s.running := rfl
@[simp] theorem State.setPc_faultCause (s : State) (v : Word) : (s.setPc v).faultCause = s.faultCause := rfl
@[simp] theorem State.setPc_faultInfo (s : State) (v : Word) : (s.setPc v).faultInfo = s.faultInfo := rfl
@[simp] theorem State.setPc_mem (s : State) (v : Word) : (s.setPc v).mem = s.mem := rfl
@[simp] theorem State.setPc_codeOp (s : State) (v : Word) : (s.setPc v).codeOp = s.codeOp := rfl
@[simp] theorem State.setPc_codeArg (s : State) (v : Word) : (s.setPc v).codeArg = s.codeArg := rfl
@[simp] theorem State.setPc_changedIndex (s : State) (v : Word) : (s.setPc v).changedIndex = s.changedIndex := rfl
@[simp] theorem State.setPc_loopStack (s : State) (v : Word) : (s.setPc v).loopStack = s.loopStack := rfl

@[simp] theorem State.advance_acc (s : State) : (s.advance).acc = s.acc := rfl
@[simp] theorem State.advance_pc (s : State) : (s.advance).pc = wrap (s.pc.toInt + 1) := rfl
@[simp] theorem State.advance_running (s : State) : (s.advance).running = s.running := rfl
@[simp] theorem State.advance_faultCause (s : State) : (s.advance).faultCause = s.faultCause := rfl
@[simp] theorem State.advance_faultInfo (s : State) : (s.advance).faultInfo = s.faultInfo := rfl
@[simp] theorem State.advance_mem (s : State) : (s.advance).mem = s.mem := rfl
@[simp] theorem State.advance_codeOp (s : State) : (s.advance).codeOp = s.codeOp := rfl
@[simp] theorem State.advance_codeArg (s : State) : (s.advance).codeArg = s.codeArg := rfl
@[simp] theorem State.advance_changedIndex (s : State) : (s.advance).changedIndex = s.changedIndex := rfl
@[simp] theorem State.advance_loopStack (s : State) : (s.advance).loopStack = s.loopStack := rfl

@[simp] theorem State.storeWord_acc (s : State) (a v : Word) : (s.storeWord a v).acc = s.acc := rfl
@[simp] theorem State.storeWord_pc (s : State) (a v : Word) : (s.storeWord a v).pc = s.pc := rfl
@[simp] theorem State.storeWord_running (s : State) (a v : Word) : (s.storeWord a v).running = s.running := rfl
@[simp] theorem State.storeWord_faultCause (s : State) (a v : Word) : (s.storeWord a v).faultCause = s.faultCause := rfl
@[simp] theorem State.storeWord_faultInfo (s : State) (a v : Word) : (s.storeWord a v).faultInfo = s.faultInfo := rfl
@[simp] theorem State.storeWord_mem (s : State) (a v : Word) : (s.storeWord a v).mem = s.mem.write a.toNat v := rfl
@[simp] theorem State.storeWord_codeOp (s : State) (a v : Word) : (s.storeWord a v).codeOp = s.codeOp := rfl
@[simp] theorem State.storeWord_codeArg (s : State) (a v : Word) : (s.storeWord a v).codeArg = s.codeArg := rfl
@[simp] theorem State.storeWord_changedIndex (s : State) (a v : Word) : (s.storeWord a v).changedIndex = a := rfl
@[simp] theorem State.storeWord_loopStack (s : State) (a v : Word) : (s.storeWord a v).loopStack = s.loopStack := rfl

@[simp] theorem State.haltEngine_acc (s : State) : (s.haltEngine).acc = s.acc := rfl
@[simp] theorem State.haltEngine_pc (s : State) : (s.haltEngine).pc = s.pc := rfl
@[simp] theorem State.haltEngine_running (s : State) : (s.haltEngine).running = false := rfl
@[simp] theorem State.haltEngine_faultCause (s : State) : (s.haltEngine).faultCause = s.faultCause := rfl
@[simp] theorem State.haltEngine_faultInfo (s : State) : (s.haltEngine).faultInfo = s.faultInfo := rfl
@[simp] theorem State.haltEngine_mem (s : State) : (s.haltEngine).mem = s.mem := rfl
@[simp] theorem State.haltEngine_codeOp (s : State) : (s.haltEngine).codeOp = s.codeOp := rfl
@[simp] theorem State.haltEngine_codeArg (s : State) : (s.haltEngine).codeArg = s.codeArg := rfl
@[simp] theorem State.haltEngine_changedIndex (s : State) : (s.haltEngine).changedIndex = s.changedIndex := rfl
@[simp] theorem State.haltEngine_loopStack (s : State) : (s.haltEngine).loopStack = [] := rfl

@[simp] theorem State.takeFault_acc (s : State) (c : Condition) : (s.takeFault c).acc = s.acc := rfl
@[simp] theorem State.takeFault_pc (s : State) (c : Condition) : (s.takeFault c).pc = s.pc := rfl
@[simp] theorem State.takeFault_running (s : State) (c : Condition) : (s.takeFault c).running = false := rfl
@[simp] theorem State.takeFault_faultCause (s : State) (c : Condition) : (s.takeFault c).faultCause = c.code := rfl
@[simp] theorem State.takeFault_faultInfo (s : State) (c : Condition) : (s.takeFault c).faultInfo = c.info s.pc := rfl
@[simp] theorem State.takeFault_mem (s : State) (c : Condition) : (s.takeFault c).mem = s.mem := rfl
@[simp] theorem State.takeFault_codeOp (s : State) (c : Condition) : (s.takeFault c).codeOp = s.codeOp := rfl
@[simp] theorem State.takeFault_codeArg (s : State) (c : Condition) : (s.takeFault c).codeArg = s.codeArg := rfl
@[simp] theorem State.takeFault_changedIndex (s : State) (c : Condition) : (s.takeFault c).changedIndex = s.changedIndex := rfl
@[simp] theorem State.takeFault_loopStack (s : State) (c : Condition) : (s.takeFault c).loopStack = [] := rfl

@[simp] theorem State.startLoop_acc (s : State) (o n : Nat) : (s.startLoop o n).acc = s.acc := rfl
@[simp] theorem State.startLoop_pc (s : State) (o n : Nat) : (s.startLoop o n).pc = s.bodyStart := rfl
@[simp] theorem State.startLoop_running (s : State) (o n : Nat) : (s.startLoop o n).running = s.running := rfl
@[simp] theorem State.startLoop_faultCause (s : State) (o n : Nat) : (s.startLoop o n).faultCause = s.faultCause := rfl
@[simp] theorem State.startLoop_faultInfo (s : State) (o n : Nat) : (s.startLoop o n).faultInfo = s.faultInfo := rfl
@[simp] theorem State.startLoop_mem (s : State) (o n : Nat) : (s.startLoop o n).mem = s.mem := rfl
@[simp] theorem State.startLoop_codeOp (s : State) (o n : Nat) : (s.startLoop o n).codeOp = s.codeOp := rfl
@[simp] theorem State.startLoop_codeArg (s : State) (o n : Nat) : (s.startLoop o n).codeArg = s.codeArg := rfl
@[simp] theorem State.startLoop_changedIndex (s : State) (o n : Nat) : (s.startLoop o n).changedIndex = s.changedIndex := rfl
@[simp] theorem State.startLoop_loopStack (s : State) (o n : Nat) : (s.startLoop o n).loopStack = ⟨s.bodyStart, n, n, o⟩ :: s.loopStack := rfl

@[simp] theorem State.complete_acc (s : State) : (s.complete).acc = s.acc := rfl
@[simp] theorem State.complete_pc (s : State) : (s.complete).pc = (creditStack s.loopStack).1.getD s.pc := rfl
@[simp] theorem State.complete_running (s : State) : (s.complete).running = s.running := rfl
@[simp] theorem State.complete_faultCause (s : State) : (s.complete).faultCause = s.faultCause := rfl
@[simp] theorem State.complete_faultInfo (s : State) : (s.complete).faultInfo = s.faultInfo := rfl
@[simp] theorem State.complete_mem (s : State) : (s.complete).mem = s.mem := rfl
@[simp] theorem State.complete_codeOp (s : State) : (s.complete).codeOp = s.codeOp := rfl
@[simp] theorem State.complete_codeArg (s : State) : (s.complete).codeArg = s.codeArg := rfl
@[simp] theorem State.complete_changedIndex (s : State) : (s.complete).changedIndex = s.changedIndex := rfl
@[simp] theorem State.complete_loopStack (s : State) : (s.complete).loopStack = (creditStack s.loopStack).2 := rfl

@[simp] theorem State.setRunning_acc (s : State) (b : Bool) : (s.setRunning b).acc = s.acc := rfl
@[simp] theorem State.setRunning_pc (s : State) (b : Bool) : (s.setRunning b).pc = s.pc := rfl
@[simp] theorem State.setRunning_running (s : State) (b : Bool) : (s.setRunning b).running = b := rfl
@[simp] theorem State.setRunning_faultCause (s : State) (b : Bool) : (s.setRunning b).faultCause = s.faultCause := rfl
@[simp] theorem State.setRunning_faultInfo (s : State) (b : Bool) : (s.setRunning b).faultInfo = s.faultInfo := rfl
@[simp] theorem State.setRunning_mem (s : State) (b : Bool) : (s.setRunning b).mem = s.mem := rfl
@[simp] theorem State.setRunning_codeOp (s : State) (b : Bool) : (s.setRunning b).codeOp = s.codeOp := rfl
@[simp] theorem State.setRunning_codeArg (s : State) (b : Bool) : (s.setRunning b).codeArg = s.codeArg := rfl
@[simp] theorem State.setRunning_changedIndex (s : State) (b : Bool) : (s.setRunning b).changedIndex = s.changedIndex := rfl
@[simp] theorem State.setRunning_loopStack (s : State) (b : Bool) : (s.setRunning b).loopStack = s.loopStack := rfl

@[simp] theorem State.clear_eq (s : State) : s.clear = { State.reset with running := s.running } := rfl

end Sys2Proof.Machine
end

