-- ==== Sys2Proof/Laws/Word.lean ====
section
/-! SUPPORT. `wrap` against the arithmetic of bit vectors, and the range check against the spec's own wording. -/

namespace Sys2Proof

@[simp] theorem wrap_toInt (a : Word) : wrap a.toInt = a := BitVec.ofInt_toInt

@[simp] theorem wrap_add (a b : Word) : wrap (a.toInt + b.toInt) = a + b := by
  simp [wrap, BitVec.ofInt_add]

@[simp] theorem wrap_succ (a : Word) : wrap (a.toInt + 1) = a + 1 := by
  have := wrap_add a 1
  simpa using this

@[simp] theorem wrap_sub (a b : Word) : wrap (a.toInt - b.toInt) = a - b := by
  rw [← BitVec.toInt_inj, BitVec.toInt_sub, wrap, BitVec.toInt_ofInt]

@[simp] theorem wrap_mul (a b : Word) : wrap (a.toInt * b.toInt) = a * b := by
  simp [wrap, BitVec.ofInt_mul]

namespace Config

theorem le_memSize : 16 ≤ memSize := Nat.le_add_left _ _

theorem memSize_le : memSize ≤ 2 ^ (W - 1) := by
  have h : memSizeAbove16.val < 2147483633 := memSizeAbove16.isLt
  have e : (2 : Nat) ^ (W - 1) = 2147483648 := rfl
  unfold memSize
  omega

theorem lt_memSize_of_lt {n : Nat} (h : n < 16) : n < memSize := Nat.lt_of_lt_of_le h le_memSize

end Config

namespace Machine

theorem toInt_eq_toNat_of_nonneg {a : Word} (h : 0 ≤ a.toInt) : a.toInt = (a.toNat : Int) := by
  rw [BitVec.toInt_eq_toNat_cond] at h ⊢
  split at h <;> rename_i hc
  · rw [if_pos hc]
  · have := a.isLt
    omega

/-- The executable range check is the spec's `0 <= a < MEM_SIZE` (20_memory.md R41). -/
theorem inRange_iff (a : Word) : inRange a = true ↔ ValidAddress a := by
  unfold inRange ValidAddress
  constructor
  · intro h
    obtain ⟨h0, h1⟩ := by simpa using h
    exact ⟨h0, by rw [toInt_eq_toNat_of_nonneg h0]; exact_mod_cast h1⟩
  · rintro ⟨h0, h1⟩
    rw [toInt_eq_toNat_of_nonneg h0] at h1
    simp only [h0, decide_true, Bool.true_and, decide_eq_true_eq]
    exact_mod_cast h1

theorem inRange_false_iff (a : Word) : inRange a = false ↔ ¬ ValidAddress a := by
  rw [← inRange_iff]; simp

theorem ValidAddress.toNat_lt {a : Word} (h : ValidAddress a) : a.toNat < Config.memSize := by
  have h1 := h.2
  rw [toInt_eq_toNat_of_nonneg h.1] at h1
  exact_mod_cast h1

end Machine

end Sys2Proof
end

