-- ==== Sys2Proof/Laws/Ops.lean ====
section
/-! SUPPORT. One lemma per shared operation saying once everything it can answer. -/

namespace Sys2Proof.Machine

/-- Everything a data read can answer (20_memory.md R42). -/
theorem memRead_cases (a : Word) (s : State) :
    (ValidAddress a ∧ memRead a s = .ok (s.mem.read a.toNat)) ∨
    (¬ ValidAddress a ∧ memRead a s = .error (.outOfRangeAddress a)) := by
  unfold memRead
  cases h : inRange a
  · exact .inr ⟨(inRange_false_iff a).1 h, rfl⟩
  · exact .inl ⟨(inRange_iff a).1 h, rfl⟩

theorem memRead_valid {a : Word} {s : State} (h : ValidAddress a) : memRead a s = .ok (s.mem.read a.toNat) := by
  simp [memRead, (inRange_iff a).2 h]

theorem memRead_invalid {a : Word} {s : State} (h : ¬ ValidAddress a) :
    memRead a s = .error (.outOfRangeAddress a) := by
  simp [memRead, (inRange_false_iff a).2 h]

/-- Everything a data write can answer (20_memory.md R43). -/
theorem memWrite_cases (a v : Word) (s : State) :
    (ValidAddress a ∧ memWrite a v s = .ok (s.storeWord a v)) ∨
    (¬ ValidAddress a ∧ memWrite a v s = .error (.outOfRangeAddress a)) := by
  unfold memWrite
  cases h : inRange a
  · exact .inr ⟨(inRange_false_iff a).1 h, rfl⟩
  · exact .inl ⟨(inRange_iff a).1 h, rfl⟩

/-- Everything a code read can answer (20_memory.md R44). -/
theorem codeRead_cases (a : Word) (s : State) :
    (ValidAddress a ∧ codeRead a s = .ok (s.codeOp.read a.toNat, s.codeArg.read a.toNat)) ∨
    (¬ ValidAddress a ∧ codeRead a s = .error (.outOfRangeAddress a)) := by
  unfold codeRead
  cases h : inRange a
  · exact .inr ⟨(inRange_false_iff a).1 h, rfl⟩
  · exact .inl ⟨(inRange_iff a).1 h, rfl⟩

/-- The only condition operand resolution raises (40_step_and_system.md R91). -/
theorem value_error {f : Form} {arg : Word} {s : State} {c : Condition} (h : value f arg s = .error c) :
    ∃ a, ¬ ValidAddress a ∧ c = .outOfRangeAddress a := by
  have key : ∀ a, memRead a s = .error c → ∃ a, ¬ ValidAddress a ∧ c = .outOfRangeAddress a := by
    intro a ha
    rcases memRead_cases a s with ⟨_, e⟩ | ⟨hv, e⟩ <;> rw [e] at ha <;> cases ha
    exact ⟨a, hv, rfl⟩
  cases f with
  | direct => exact key arg h
  | immediate => cases h
  | indirect =>
    rcases memRead_cases arg s with ⟨_, e⟩ | ⟨hv, e⟩
    · simp only [value, e, bind, Except.bind] at h
      exact key _ h
    · simp only [value, e, bind, Except.bind] at h
      cases h
      exact ⟨arg, hv, rfl⟩

/-- A handler's mode check answers the form a legal mode stands for. -/
theorem requireForm_ok {oc : BitVec 4} {l : List Form} {m : Mode} {f : Form}
    (h : requireForm oc l m = .ok f) : f ∈ l ∧ f.mode = m := by
  unfold requireForm at h
  split at h
  · rename_i g hg
    cases h
    exact ⟨List.mem_of_find?_eq_some hg, by simpa using List.find?_some hg⟩
  · cases h

@[simp] theorem bind_ok {α β : Type} (a : α) (f : α → Except Condition β) :
    (Except.ok a >>= f) = f a := rfl

@[simp] theorem bind_error {α β : Type} (c : Condition) (f : α → Except Condition β) :
    ((Except.error c : Except Condition α) >>= f) = .error c := rfl

@[simp] theorem pure_ok {α : Type} (a : α) : (pure a : Except Condition α) = .ok a := rfl

/-- A bind that succeeds: its first part succeeded and so did the rest. -/
theorem bind_eq_ok {α β : Type} {x : Except Condition α} {f : α → Except Condition β} {b : β}
    (h : x >>= f = .ok b) : ∃ a, x = .ok a ∧ f a = .ok b := by
  cases x with
  | ok a => exact ⟨a, rfl, h⟩
  | error c => cases h

/-- `settle` answers a next state always. -/
theorem settle_next (s : State) (r : Except Condition State) :
    (∃ t, r = .ok t ∧ settle s r = .next t) ∨ (∃ c, r = .error c ∧ settle s r = .next (s.takeFault c)) := by
  cases r with
  | ok t => exact .inl ⟨t, rfl, rfl⟩
  | error c => exact .inr ⟨c, rfl, rfl⟩

/-- Everything `Complete()` does to the stack: nothing on an empty one; else it counts the Step, or starts the
innermost FOR's next pass, or pops its frame and credits the FOR below (45_for.md R159). -/
theorem creditStack_cases (st : List Frame) :
    (st = [] ∧ creditStack st = (none, [])) ∨
    ∃ f r, st = f :: r ∧
      ((1 < f.jLeft ∧ creditStack st = (none, { f with jLeft := f.jLeft - 1 } :: r)) ∨
       (f.jLeft ≤ 1 ∧ 1 < f.oLeft ∧
         creditStack st = (some f.bodyStart, { f with jLeft := f.inner, oLeft := f.oLeft - 1 } :: r)) ∨
       (f.jLeft ≤ 1 ∧ f.oLeft ≤ 1 ∧ creditStack st = creditStack r)) := by
  cases st with
  | nil => exact .inl ⟨rfl, rfl⟩
  | cons f r =>
    refine .inr ⟨f, r, rfl, ?_⟩
    rw [creditStack]
    split
    · exact .inl ⟨by omega, rfl⟩
    · split
      · exact .inr (.inl ⟨by omega, by omega, rfl⟩)
      · exact .inr (.inr ⟨by omega, by omega, rfl⟩)

/-- With no FOR in progress `Complete()` changes nothing (45_for.md R159). -/
theorem State.complete_of_nil {s : State} (h : s.loopStack = []) : s.complete = s := by
  cases s
  subst h
  rfl

/-- Each count of a split word lies in the range of 45_for.md R152. -/
theorem positiveCounts_bounds {v : Word} {o n : Nat} (h : positiveCounts v = some (o, n)) :
    1 ≤ o ∧ o ≤ 4095 ∧ 1 ≤ n ∧ n ≤ (2 ^ (W - 1) - 1) / 4096 := by
  unfold positiveCounts at h
  simp only at h
  split at h
  · rename_i hc
    simp only [Option.some.injEq, Prod.mk.injEq] at h
    obtain ⟨rfl, rfl⟩ := h
    simp only [splitCount, Config.forSplit] at hc ⊢
    have hi : v.toInt < 2147483648 := by
      have := BitVec.toInt_lt (x := v); simpa using this
    have e : (2 ^ (W - 1) - 1) / 4096 = 524287 := rfl
    rw [e]
    by_cases hn : 0 ≤ v.toInt
    · rw [Int.tmod_eq_emod_of_nonneg hn, Int.tdiv_eq_ediv_of_nonneg hn] at *
      omega
    · have : Int.tdiv v.toInt 4096 ≤ 0 := by
        have := Int.tdiv_nonneg (a := -v.toInt) (b := 4096) (by omega) (by omega)
        rw [Int.neg_tdiv] at this
        omega
      omega
  · cases h

end Sys2Proof.Machine
end

