-- ==== Sys2Proof/Laws/Exec.lean ====
section
/-! SUPPORT. What a handler, `exec` and a cycle can do, said once. -/

namespace Sys2Proof.Machine

/-- `exec` settles the pure handler of its instruction. -/
theorem exec_eq_settle (i : Instr) (s : State) : exec i s = settle s (handle i s) := by
  cases i <;> rfl

/-- `exec` answers a next state always: the handler's, or the fault action's. -/
theorem exec_cases (i : Instr) (s : State) :
    (∃ t, handle i s = .ok t ∧ exec i s = .next t) ∨
    (∃ c, handle i s = .error c ∧ exec i s = .next (s.takeFault c)) := by
  rw [exec_eq_settle]
  exact settle_next s _

/-- Everything a handler that raises no condition can do to the state. -/
inductive Effect (i : Instr) (s : State) : State → Prop where
  | acc (v : Word) (h : writesAcc i = true) : Effect i s (s.setAcc v).advance
  | store (m : Mode) (arg a : Word) (hi : i = .sto m arg) (ht : storeTarget m arg s = .ok a)
      (ha : ValidAddress a) : Effect i s (s.storeWord a s.acc).advance
  | next (h : (∃ m arg, i = .nop m arg) ∨ ∃ m arg, i = .jmpz m arg) : Effect i s s.advance
  | goTo (m : Mode) (arg p : Word) (hi : i = .jump m arg ∨ (i = .jmpz m arg ∧ s.acc = 0))
      (hp : jumpTarget m arg s = .ok p) : Effect i s (s.setPc p)
  | loop (m : Mode) (arg : Word) (hi : i = .forLoop m arg) (o n : Nat)
      (hc : loopCounts i s = some (o, n)) : Effect i s (s.startLoop o n)
  | spin (m : Mode) (arg : Word) (hi : i = .forLoop m arg) (hc : loopCounts i s = none) : Effect i s s
  | halt (m : Mode) (arg : Word) (hi : i = .halt m arg) : Effect i s s.haltEngine

/-- A handler that raises no condition has one of those effects. -/
theorem handle_effect {i : Instr} {s t : State} (h : handle i s = .ok t) : Effect i s t := by
  cases i with
  | nop m arg =>
    obtain ⟨_, _, h⟩ := bind_eq_ok h
    cases h
    exact .next (.inl ⟨m, arg, rfl⟩)
  | lod m arg =>
    obtain ⟨_, _, h⟩ := bind_eq_ok h
    obtain ⟨_, _, h⟩ := bind_eq_ok h
    cases h
    exact .acc _ rfl
  | sto m arg =>
    obtain ⟨a, ha, h⟩ := bind_eq_ok h
    obtain ⟨u, hu, h⟩ := bind_eq_ok h
    rcases memWrite_cases a s.acc s with ⟨hv, e⟩ | ⟨_, e⟩ <;> rw [e] at hu <;> cases hu
    cases h
    exact .store m arg a rfl ha hv
  | jump m arg =>
    obtain ⟨p, hp, h⟩ := bind_eq_ok h
    cases h
    exact .goTo m arg p (.inl rfl) hp
  | jmpz m arg =>
    simp only [handle, handleJmpz] at h
    split at h
    · rename_i hz
      split at h
      · rename_i p hp
        cases h
        exact .goTo m arg p (.inr ⟨rfl, hz⟩) hp
      · cases h
    · cases h
      exact .next (.inr ⟨m, arg, rfl⟩)
  | add m arg | sub m arg | mul m arg =>
    obtain ⟨_, _, h⟩ := bind_eq_ok h
    obtain ⟨_, _, h⟩ := bind_eq_ok h
    cases h
    exact .acc _ rfl
  | div m arg =>
    obtain ⟨_, _, h⟩ := bind_eq_ok h
    obtain ⟨_, _, h⟩ := bind_eq_ok h
    split at h <;> cases h
    exact .acc _ rfl
  | logAnd m arg | cmpl m arg | cmpz m arg =>
    obtain ⟨_, _, h⟩ := bind_eq_ok h
    obtain ⟨_, _, h⟩ := bind_eq_ok h
    cases h
    exact .acc _ rfl
  | logNot m arg =>
    obtain ⟨_, _, h⟩ := bind_eq_ok h
    cases h
    exact .acc _ rfl
  | forLoop m arg =>
    obtain ⟨v, hv, h⟩ := bind_eq_ok h
    split at h <;> cases h
    · rename_i o n hc
      exact .loop m arg rfl o n (by simp [loopCounts, hv, hc])
    · rename_i hc
      exact .spin m arg rfl (by simp [loopCounts, hv, hc])
  | unused0E m arg => cases h
  | halt m arg =>
    obtain ⟨_, _, h⟩ := bind_eq_ok h
    cases h
    exact .halt m arg rfl

/-- An instruction that starts a loop raises no condition and does exactly that. -/
theorem handle_of_loopCounts {i : Instr} {s : State} {o n : Nat} (h : loopCounts i s = some (o, n)) :
    handle i s = .ok (s.startLoop o n) := by
  cases i with
  | forLoop m arg =>
    simp only [loopCounts] at h
    split at h
    · rename_i v hv
      simp [handle, handleFor, hv, h]
    · cases h
  | _ => cases h

/-- An address a fetch succeeds at is valid, and the word there decodes to the instruction fetched. -/
theorem fetchInstr_ok {s : State} {i : Instr} (h : fetchInstr s = .ok i) :
    ValidAddress s.pc ∧ decode (s.codeOp.read s.pc.toNat) (s.codeArg.read s.pc.toNat) = .ok i := by
  obtain ⟨w, hw, h⟩ := bind_eq_ok h
  rcases codeRead_cases s.pc s with ⟨hv, e⟩ | ⟨_, e⟩ <;> rw [e] at hw <;> cases hw
  refine ⟨hv, ?_⟩
  simp only at h
  split at h
  · cases h; assumption
  · cases h

/-- Everything one cycle can do: nothing while halted, the fault action, or an instruction's effect followed by
the end of the cycle. -/
theorem step_cases (s : State) :
    (s.running = false ∧ step s = .next s) ∨
    (s.running = true ∧ ∃ c, raisedBy s = some c ∧ step s = .next (s.takeFault c)) ∨
    (s.running = true ∧ raisedBy s = none ∧ ∃ i t, fetchInstr s = .ok i ∧ handle i s = .ok t ∧
      step s = .next (finishCycle i s t)) := by
  cases hr : s.running with
  | false => exact .inl ⟨rfl, by simp [step, hr]⟩
  | true =>
    refine .inr ?_
    cases hf : fetchInstr s with
    | error c => exact .inl ⟨rfl, c, by simp [raisedBy, hr, hf], by simp [step, hr, hf]⟩
    | ok i =>
      cases hh : handle i s with
      | ok t =>
        exact .inr ⟨rfl, by simp [raisedBy, hr, hf, hh], i, t, rfl, hh,
          by simp [step, hr, hf, exec_eq_settle, hh, settle]⟩
      | error c =>
        refine .inl ⟨rfl, c, by simp [raisedBy, hr, hf, hh], ?_⟩
        have hl : ¬ (loopCounts i s).isSome := by
          intro hs
          obtain ⟨⟨o, n⟩, e⟩ := Option.isSome_iff_exists.1 hs
          rw [handle_of_loopCounts e] at hh
          cases hh
        simp [step, hr, hf, exec_eq_settle, hh, settle, finishCycle, hl, State.complete, creditStack,
          State.takeFault]

end Sys2Proof.Machine
end

