-- ==== Sys2Proof/Laws/Host.lean ====
section
/-! SUPPORT. What the host operations can answer (spec/70_reset_and_hazards.md R199, R201, R202, R205). -/

namespace Sys2Proof.Machine

@[simp] theorem offered_between {α : Type} {s : State} (h : s.loopStack = []) (r : Except HostRefusal α) :
    offered s r = r := if_pos h

@[simp] theorem offered_during {α : Type} {s : State} (h : s.loopStack ≠ []) (r : Except HostRefusal α) :
    offered s r = .error .stepInProgress := if_neg h

/-- An operation that succeeds was made between top-level Steps, and its own work succeeded (R199). -/
theorem offered_ok {α : Type} {s : State} {r : Except HostRefusal α} {a : α} (h : offered s r = .ok a) :
    s.loopStack = [] ∧ r = .ok a := by
  unfold offered at h
  split at h
  · exact ⟨‹_›, h⟩
  · cases h

theorem hostInRange_iff (i : Int) : hostInRange i = true ↔ 0 ≤ i ∧ i < (Config.memSize : Int) := by
  simp only [hostInRange, Bool.and_eq_true, decide_eq_true_eq]
  omega

/-- Everything a successful `set_code` does (R201). -/
theorem setCode_ok {i : Int} {op : Byte} {arg : Word} {s t : State} (h : setCode i op arg s = .ok t) :
    s.loopStack = [] ∧ (0 ≤ i ∧ i < (Config.memSize : Int)) ∧
      t = { s with codeOp := s.codeOp.write i.toNat op, codeArg := s.codeArg.write i.toNat arg } := by
  obtain ⟨hl, h⟩ := offered_ok h
  split at h
  · cases h
    exact ⟨hl, (hostInRange_iff i).1 ‹_›, rfl⟩
  · cases h

/-- Everything a successful `set_data` does (R202). -/
theorem setData_ok {i : Int} {v : Word} {s t : State} (h : setData i v s = .ok t) :
    s.loopStack = [] ∧ (0 ≤ i ∧ i < (Config.memSize : Int)) ∧ t = s.storeWord (wrap i) v := by
  obtain ⟨hl, h⟩ := offered_ok h
  split at h
  · cases h
    exact ⟨hl, (hostInRange_iff i).1 ‹_›, rfl⟩
  · cases h

end Sys2Proof.Machine
end

