-- ==== Sys2Proof/Laws/PerInstr.lean ====
section
/-! SUPPORT. Per-instruction families: one lemma per constructor of `Instr`. -/

namespace Sys2Proof.Laws

/-- The word an instruction is written as: even parity, bit 7 clear, `arg` whole (30_encoding.md R60, R61, R63). -/
def PackedWord.Statement (i : Instr) : Prop :=
  checkParity (encode i).1 = true ∧ (encode i).1.getLsbD 7 = false ∧ (encode i).2 = i.arg

/-- Every packed byte has even parity and bit 7 clear (30_encoding.md R61, R63). -/
theorem pack_even (oc : BitVec 4) (m : Mode) :
    checkParity (pack oc m) = true ∧ (pack oc m).getLsbD 7 = false := by
  cases m <;> revert oc <;> decide

theorem PackedWord.nop (m : Mode) (arg : Word) : PackedWord.Statement (.nop m arg) :=
  ⟨(pack_even _ m).1, (pack_even _ m).2, rfl⟩

theorem PackedWord.lod (m : Mode) (arg : Word) : PackedWord.Statement (.lod m arg) :=
  ⟨(pack_even _ m).1, (pack_even _ m).2, rfl⟩

theorem PackedWord.sto (m : Mode) (arg : Word) : PackedWord.Statement (.sto m arg) :=
  ⟨(pack_even _ m).1, (pack_even _ m).2, rfl⟩

theorem PackedWord.jump (m : Mode) (arg : Word) : PackedWord.Statement (.jump m arg) :=
  ⟨(pack_even _ m).1, (pack_even _ m).2, rfl⟩

theorem PackedWord.jmpz (m : Mode) (arg : Word) : PackedWord.Statement (.jmpz m arg) :=
  ⟨(pack_even _ m).1, (pack_even _ m).2, rfl⟩

theorem PackedWord.add (m : Mode) (arg : Word) : PackedWord.Statement (.add m arg) :=
  ⟨(pack_even _ m).1, (pack_even _ m).2, rfl⟩

theorem PackedWord.sub (m : Mode) (arg : Word) : PackedWord.Statement (.sub m arg) :=
  ⟨(pack_even _ m).1, (pack_even _ m).2, rfl⟩

theorem PackedWord.mul (m : Mode) (arg : Word) : PackedWord.Statement (.mul m arg) :=
  ⟨(pack_even _ m).1, (pack_even _ m).2, rfl⟩

theorem PackedWord.div (m : Mode) (arg : Word) : PackedWord.Statement (.div m arg) :=
  ⟨(pack_even _ m).1, (pack_even _ m).2, rfl⟩

theorem PackedWord.logAnd (m : Mode) (arg : Word) : PackedWord.Statement (.logAnd m arg) :=
  ⟨(pack_even _ m).1, (pack_even _ m).2, rfl⟩

theorem PackedWord.logNot (m : Mode) (arg : Word) : PackedWord.Statement (.logNot m arg) :=
  ⟨(pack_even _ m).1, (pack_even _ m).2, rfl⟩

theorem PackedWord.cmpl (m : Mode) (arg : Word) : PackedWord.Statement (.cmpl m arg) :=
  ⟨(pack_even _ m).1, (pack_even _ m).2, rfl⟩

theorem PackedWord.cmpz (m : Mode) (arg : Word) : PackedWord.Statement (.cmpz m arg) :=
  ⟨(pack_even _ m).1, (pack_even _ m).2, rfl⟩

theorem PackedWord.forLoop (m : Mode) (arg : Word) : PackedWord.Statement (.forLoop m arg) :=
  ⟨(pack_even _ m).1, (pack_even _ m).2, rfl⟩

theorem PackedWord.unused0E (m : Mode) (arg : Word) : PackedWord.Statement (.unused0E m arg) :=
  ⟨(pack_even _ m).1, (pack_even _ m).2, rfl⟩

theorem PackedWord.halt (m : Mode) (arg : Word) : PackedWord.Statement (.halt m arg) :=
  ⟨(pack_even _ m).1, (pack_even _ m).2, rfl⟩

end Sys2Proof.Laws
end

