-- ==== Sys2Proof/Tests/Slice0.lean ====
section
/-! SUPPORT. Our own tests. Every expected value is read from spec/ (the section is named), never from the model.
Capacity is opaque and at least 16, so the tests stay at indices 0 .. 15. -/

open Sys2Proof Sys2Proof.Machine

namespace Sys2Proof.Tests

/-! ### Well-formedness: a legal term is accepted, an ill-formed one refused (30_encoding.md R67) -/

theorem test_wf_nop : (Instr.nop .direct 0).wellFormed = true ∧ (Instr.nop .immediate 0).wellFormed = false := by decide
theorem test_wf_lod : (Instr.lod .indirect 0).wellFormed = true ∧ (Instr.lod .mode3 0).wellFormed = false := by decide
theorem test_wf_sto : (Instr.sto .indirect 0).wellFormed = true ∧ (Instr.sto .immediate 0).wellFormed = false := by decide
theorem test_wf_jump : (Instr.jump .mode3 0).wellFormed = true := by decide
theorem test_wf_jmpz : (Instr.jmpz .mode3 0).wellFormed = true := by decide
theorem test_wf_add : (Instr.add .indirect 0).wellFormed = true ∧ (Instr.add .mode3 0).wellFormed = false := by decide
theorem test_wf_sub : (Instr.sub .indirect 0).wellFormed = true ∧ (Instr.sub .mode3 0).wellFormed = false := by decide
theorem test_wf_mul : (Instr.mul .indirect 0).wellFormed = true ∧ (Instr.mul .mode3 0).wellFormed = false := by decide
theorem test_wf_div : (Instr.div .indirect 0).wellFormed = true ∧ (Instr.div .mode3 0).wellFormed = false := by decide
theorem test_wf_and :
    (Instr.logAnd .immediate 0).wellFormed = true ∧ (Instr.logAnd .indirect 0).wellFormed = false := by decide
theorem test_wf_not :
    (Instr.logNot .direct 0).wellFormed = true ∧ (Instr.logNot .mode3 0).wellFormed = false := by decide
theorem test_wf_cmpl : (Instr.cmpl .direct 0).wellFormed = true ∧ (Instr.cmpl .immediate 0).wellFormed = false := by decide
theorem test_wf_cmpz : (Instr.cmpz .direct 0).wellFormed = true ∧ (Instr.cmpz .indirect 0).wellFormed = false := by decide
theorem test_wf_for :
    (Instr.forLoop .immediate 0).wellFormed = true ∧ (Instr.forLoop .indirect 0).wellFormed = false := by decide
theorem test_wf_unused0E :
    (Instr.unused0E .direct 0).wellFormed = false ∧ (Instr.unused0E .mode3 0).wellFormed = false := by decide
theorem test_wf_halt : (Instr.halt .direct 0).wellFormed = true ∧ (Instr.halt .mode3 0).wellFormed = false := by decide

/-! ### Decoding: each byte written out as `0 oooo mm p` from 30_encoding.md R60, R68 -/

theorem test_decode_nop : decode 0b0_0000_00_0 7 = .ok (.nop .direct 7) := by decide
theorem test_decode_lod : decode 0b0_0001_10_0 5 = .ok (.lod .indirect 5) := by decide
theorem test_decode_sto : decode 0b0_0010_00_1 4 = .ok (.sto .direct 4) := by decide
theorem test_decode_jump : decode 0b0_0011_11_0 (-3) = .ok (.jump .mode3 (-3)) := by decide
theorem test_decode_jmpz : decode 0b0_0100_01_0 9 = .ok (.jmpz .immediate 9) := by decide
theorem test_decode_add : decode 0b0_0101_00_0 0 = .ok (.add .direct 0) := by decide
theorem test_decode_sub : decode 0b0_0110_01_1 1 = .ok (.sub .immediate 1) := by decide
theorem test_decode_mul : decode 0b0_0111_10_0 1 = .ok (.mul .indirect 1) := by decide
theorem test_decode_div : decode 0b0_1000_00_1 3 = .ok (.div .direct 3) := by decide
theorem test_decode_and : decode 0b0_1001_01_1 2 = .ok (.logAnd .immediate 2) := by decide
theorem test_decode_not : decode 0b0_1010_00_0 0 = .ok (.logNot .direct 0) := by decide
theorem test_decode_cmpl : decode 0b0_1011_00_1 3 = .ok (.cmpl .direct 3) := by decide
theorem test_decode_cmpz : decode 0b0_1100_00_0 4 = .ok (.cmpz .direct 4) := by decide
theorem test_decode_for : decode 0b0_1101_01_0 0x2003 = .ok (.forLoop .immediate 0x2003) := by decide
theorem test_decode_unused0E : decode 0b0_1110_11_1 0 = .ok (.unused0E .mode3 0) := by decide
theorem test_decode_halt : decode 0b0_1111_00_0 0 = .ok (.halt .direct 0) := by decide

/-- A table word: `op_byte` in bits 7..0, `arg` in bits 39..8. -/
theorem test_table_word : decodeTableWord 40 0x50A = some (.lod .immediate 5) := by decide

/-- Odd parity is refused even on a table row's pattern (95_test_vectors.md V-CODEC, 0x08). -/
theorem test_table_word_odd_parity : decodeTableWord 8 0x08 = none := by decide

/-- The samples of 95_test_vectors.md S1. -/
theorem test_parity_samples :
    [0x00, 0x03, 0x0A, 0x78, 0x81, 0xFF].all checkParity = true ∧
    [0x01, 0x07, 0x08, 0x7F, 0x80, 0xFE].any checkParity = false := by decide

/-- The samples of 95_test_vectors.md S2 and V-CODEC. -/
theorem test_pack_samples :
    pack 1 .immediate = 0x0A ∧ pack 5 .direct = 0x28 ∧ pack 2 .direct = 0x11 ∧ pack 0 .immediate = 0x03 ∧
    pack 3 .mode3 = 0x1E ∧ pack 13 .direct = 0x69 ∧ pack 15 .mode3 = 0x7E ∧ unpack 0x1D = (3, .indirect) := by decide

/-- The census of all 256 bytes, 30_encoding.md R70: 128 corrupted, 64 with bit 7 set, 4 of opcode 0xE, 26 illegal
modes, 34 legal. -/
def classOf (n : Nat) : Nat :=
  match decode (BitVec.ofNat 8 n) 0 with
  | .error .corrupted     => 0
  | .error (.noHandler _) => 1
  | .ok (.unused0E _ _)   => 2
  | .ok i                 => if i.wellFormed then 4 else 3

theorem test_op_byte_census :
    [0, 1, 2, 3, 4].map (fun k => ((List.range 256).filter fun n => classOf n == k).length) =
      [128, 64, 4, 26, 34] := by decide +kernel

/-! ### One step of each instruction (95_test_vectors.md, part 2) -/

/-- The memory of V-LS. -/
def vlsMem : Memory W := [(0, 2), (1, 3), (2, 0x2A), (3, -9)]

/-- A running engine with the memory of V-LS, `acc = a` and `pc = p`. -/
def at_ (p a : Word) : State := { State.reset with acc := a, pc := p, mem := vlsMem, running := true }

theorem test_nop : exec (.nop .direct 0x55) (at_ 0 3) = .next (at_ 1 3) := rfl
theorem test_lod_direct : exec (.lod .direct 2) (at_ 0 99) = .next (at_ 1 0x2A) := rfl
theorem test_lod_indirect : exec (.lod .indirect 0) (at_ 0 99) = .next (at_ 1 0x2A) := rfl
theorem test_sto_direct : exec (.sto .direct 4) (at_ 0 (-1)) =
    .next { at_ 1 (-1) with mem := vlsMem ++ [(4, -1)], changedIndex := 4 } := rfl
theorem test_sto_indirect : exec (.sto .indirect 1) (at_ 0 0x77) =
    .next { at_ 1 0x77 with mem := [(0, 2), (1, 3), (2, 0x2A), (3, 0x77)], changedIndex := 3 } := rfl
theorem test_jump_indirect : exec (.jump .indirect 2) (at_ 3 0) = .next (at_ 45 0) := rfl
theorem test_jump_negative : exec (.jump .direct (-3)) (at_ 0 0) = .next (at_ (-3) 0) := rfl
theorem test_jmpz_taken : exec (.jmpz .direct 4) (at_ 1 0) = .next (at_ 5 0) := rfl
theorem test_jmpz_not_taken : exec (.jmpz .indirect 0x7FFF) (at_ 0 1) = .next (at_ 1 1) := rfl
theorem test_add_wraps : exec (.add .immediate 1) (at_ 0 0x7FFFFFFF) = .next (at_ 1 0x80000000) := rfl
theorem test_add_indirect : exec (.add .indirect 0) (at_ 0 1) = .next (at_ 1 0x2B) := rfl
theorem test_sub_minuend : exec (.sub .immediate (-4)) (at_ 0 3) = .next (at_ 1 7) := rfl
theorem test_sub_direct : exec (.sub .direct 3) (at_ 0 1) = .next (at_ 1 10) := rfl
theorem test_mul_low_word : exec (.mul .immediate 0x6789A) (at_ 0 0x12345) = .next (at_ 1 0x5CD58F82) := rfl
theorem test_mul_signed : exec (.mul .indirect 1) (at_ 0 (-2)) = .next (at_ 1 18) := rfl
theorem test_div_truncates : exec (.div .direct 3) (at_ 0 100) = .next (at_ 1 (-11)) := rfl
theorem test_div_min_by_minus_one :
    exec (.div .immediate (-1)) (at_ 0 0x80000000) = .next (at_ 1 0x80000000) := rfl
theorem test_and_logical : exec (.logAnd .immediate 2) (at_ 0 1) = .next (at_ 1 1) := rfl
theorem test_and_zero_cell : exec (.logAnd .direct 4) (at_ 0 5) = .next (at_ 1 0) := rfl
theorem test_not_zero : exec (.logNot .direct 0) (at_ 0 0) = .next (at_ 1 1) := rfl
theorem test_not_min : exec (.logNot .direct 0x1234) (at_ 0 0x80000000) = .next (at_ 1 0) := rfl
theorem test_cmpl_negative : exec (.cmpl .direct 3) (at_ 0 7) = .next (at_ 1 1) := rfl
theorem test_cmpl_zero : exec (.cmpl .direct 4) (at_ 0 7) = .next (at_ 1 0) := rfl
theorem test_cmpz_zero : exec (.cmpz .direct 4) (at_ 0 7) = .next (at_ 1 1) := rfl
theorem test_cmpz_negative : exec (.cmpz .direct 3) (at_ 0 7) = .next (at_ 1 0) := rfl
theorem test_for_starts : exec (.forLoop .immediate 0x2003) (at_ 0 0) =
    .next { at_ 1 0 with loopStack := [⟨1, 2, 2, 3⟩] } := rfl
theorem test_for_zero_spins : exec (.forLoop .immediate 0x1000) (at_ 0 0) = .next (at_ 0 0) := rfl
theorem test_unused0E : exec (.unused0E .direct 0) (at_ 2 3) =
    .next { at_ 2 3 with running := false, faultCause := 4, faultInfo := ⟨2, 14, 0⟩ } := rfl
theorem test_halt : exec (.halt .direct 0x55) (at_ 0 3) = .next { at_ 0 3 with running := false } := rfl

/-! ### Conditions and their order (95_test_vectors.md V-FAULT) -/

/-- A running engine at entry 0 holding the word `(op, arg)`, with `acc = 9`, `Mem[0] = 1` and `Mem[2] = -1`. -/
def word (op : Byte) (arg : Word) : State :=
  { State.reset with
    acc := 9, running := true, mem := [(0, 1), (2, -1)], codeOp := Memory.write [] 0 op, codeArg := Memory.write [] 0 arg }

theorem test_parity_first : raisedBy (word 0x0E 0) = some .corruptedInstruction := by decide
theorem test_mode_before_operand : raisedBy (word 0x0F (-1)) = some (.illegalAddressingMode 1 .mode3) := by decide
theorem test_opcode_before_mode : raisedBy (word 0x77 0) = some (.undefinedOpcode 14) := by decide
theorem test_range_before_divisor : raisedBy (word 0x44 2) = some (.outOfRangeAddress (-1)) := by decide
theorem test_zero_divisor : raisedBy (word 0x44 0) = some (.divideByZero .indirect) := by decide
theorem test_fault_keeps_acc : step (word 0x44 0) =
    .next { word 0x44 0 with running := false, faultCause := 3, faultInfo := ⟨0, 8, 2⟩ } := rfl
theorem test_bit7_undefined : raisedBy (word 0x81 0) = some (.undefinedOpcode 16) := by decide
theorem test_halted_step : step State.reset = .next State.reset := rfl

/-! ### The loop stack: one cycle each (45_for.md R159) -/

/-- A NOP at `pc = 2` with the loop stack `l`. -/
def looping (l : List Frame) : State := { at_ 2 0 with loopStack := l }

theorem test_pass_goes_on : step (looping [⟨1, 3, 2, 1⟩]) = .next { at_ 3 0 with loopStack := [⟨1, 3, 1, 1⟩] } := rfl
theorem test_next_pass : step (looping [⟨1, 3, 1, 2⟩]) = .next { at_ 1 0 with loopStack := [⟨1, 3, 3, 1⟩] } := rfl
theorem test_inner_ends_parent_counts : step (looping [⟨2, 1, 1, 1⟩, ⟨1, 2, 2, 5⟩]) =
    .next { at_ 3 0 with loopStack := [⟨1, 2, 1, 5⟩] } := rfl

/-! ### The host (95_test_vectors.md V-HOST, S7) -/

theorem test_set_data : (setData 3 7 State.reset).toOption.map (fun s => (s.mem.read 3, s.changedIndex)) =
    some (7, 3) := by decide
theorem test_get_data_refused : getData (-1) State.reset = .error (.outOfRangeAddress (-1)) := by rfl
theorem test_no_read_during_step : getPc (looping [⟨1, 3, 2, 1⟩]) = .error .stepInProgress := rfl
theorem test_boot_refused_during_step : boot [] [] (looping [⟨1, 3, 2, 1⟩]) = .error .stepInProgress := rfl
theorem test_host_step_is_whole_step : hostStep 1 (looping []) = .ok (some (at_ 3 0, none)) := rfl
theorem test_assembler_s7 :
    assembleLine .lod (some (.hash, 5)) = some (0x0A, 5) ∧ assembleLine .add (some (.none, 0)) = some (0x28, 0) ∧
    assembleLine .halt none = some (0x78, 0) := by decide
theorem test_boot_enters_at_zero :
    (boot [(0x0A, 5), (0x78, 0)] [(0, 7)] State.reset).toOption.map (fun s => (s.pc, s.running, s.mem.read 0)) =
      some (0, true, 7) := by decide

/-! ### Witnesses

For every statement with hypotheses, concrete data that meet all of them together, clause by clause and at the
boundaries of the address range. `wit_<Statement>` belongs to `Obligations.<Statement>`. -/

/-- The last index of the stores, as a word. -/
abbrev lastCell : Word := BitVec.ofNat W (Config.memSize - 1)

/-- The first index beyond the stores, as a word. -/
abbrev firstBeyond : Word := BitVec.ofNat W Config.memSize

theorem valid (a : Word) (h : inRange a = true) : ValidAddress a := (inRange_iff a).1 h

theorem invalid (a : Word) (h : inRange a = false) : ¬ ValidAddress a := (inRange_false_iff a).1 h

theorem lastCell_valid : ValidAddress lastCell := by
  have h1 := Config.le_memSize
  have h2 : Config.memSize ≤ 2147483648 := Config.memSize_le
  have h3 : lastCell.toNat = Config.memSize - 1 := by
    rw [BitVec.toNat_ofNat, Nat.mod_eq_of_lt]
    show Config.memSize - 1 < 4294967296
    omega
  rw [← inRange_iff, inRange, Bool.and_eq_true, decide_eq_true_eq, decide_eq_true_eq, BitVec.toInt_eq_toNat_cond, h3]
  show 0 ≤ (if 2 * (Config.memSize - 1) < 4294967296 then ((Config.memSize - 1 : Nat) : Int)
    else ((Config.memSize - 1 : Nat) : Int) - (4294967296 : Nat)) ∧ Config.memSize - 1 < Config.memSize
  rw [if_pos (by omega)]
  omega

theorem firstBeyond_invalid : ¬ ValidAddress firstBeyond := by
  have h2 : Config.memSize ≤ 2147483648 := Config.memSize_le
  have h3 : firstBeyond.toNat = Config.memSize := by
    rw [BitVec.toNat_ofNat, Nat.mod_eq_of_lt]
    show Config.memSize < 4294967296
    omega
  intro h
  have := ValidAddress.toNat_lt h
  omega

/-- The boundaries of the address range: both ends inside, both neighbours outside. -/
theorem wit_addresses : ValidAddress 0 ∧ ValidAddress 15 ∧ ValidAddress lastCell ∧ ¬ ValidAddress (-1) ∧
    ¬ ValidAddress firstBeyond ∧ ¬ ValidAddress 0x80000000 :=
  ⟨valid _ (by decide), valid _ (by decide), lastCell_valid, invalid _ (by decide), firstBeyond_invalid,
    invalid _ (by decide)⟩

/-! ### The codec -/

theorem wit_DecodeEncodeAgree : decode 0x6A 0x2003 = .ok (.forLoop .immediate 0x2003) := by decide

theorem wit_PackUnpackRoundTrip :
    checkParity 0x00 = true ∧ (0x00 : Byte).getLsbD 7 = false ∧
    checkParity 0x7E = true ∧ (0x7E : Byte).getLsbD 7 = false := by decide

theorem wit_OddParityRaisesCorrupted :
    ((word 0x08 0).running = true ∧ ValidAddress (word 0x08 0).pc ∧
      (((List.range 8).map fun k => (((word 0x08 0).codeOp.read 0).getLsbD k).toNat).sum % 2 = 1)) ∧
    ((word 0xFF 0).running = true ∧ ValidAddress (word 0xFF 0).pc ∧
      (((List.range 8).map fun k => (((word 0xFF 0).codeOp.read 0).getLsbD k).toNat).sum % 2 = 0)) :=
  ⟨⟨rfl, valid _ (by decide), by decide⟩, rfl, valid _ (by decide), by decide⟩

theorem wit_AssembledLineDecodes : Mnemonic.forLoop.noArgument = false ∧ Mnemonic.halt.noArgument = true := by decide

/-! ### Reset, memory and operands -/

theorem wit_DataWriteStoresOneWord :
    (ValidAddress lastCell ∧ (at_ 0 0).mem.wf = true) ∧ (ValidAddress 0 ∧ (at_ 0 0).mem.wf = true) ∧
    ¬ ValidAddress (-1) ∧ ¬ ValidAddress firstBeyond :=
  ⟨⟨lastCell_valid, by decide⟩, ⟨valid _ (by decide), by decide⟩, invalid _ (by decide), firstBeyond_invalid⟩

theorem wit_ReadsCheckRange : ValidAddress 0 ∧ ValidAddress lastCell ∧ ¬ ValidAddress (-1) ∧ ¬ ValidAddress firstBeyond :=
  ⟨valid _ (by decide), lastCell_valid, invalid _ (by decide), firstBeyond_invalid⟩

theorem wit_CanonicalStoresAreTheirReads : Memory.wf vlsMem = true ∧ Memory.wf (w := W) [] = true := by decide

/-- Each operand form with its operand, used by the statements about LOD, ADD, SUB, MUL and DIV. -/
theorem wit_OperandResolution :
    OperandIs .direct 2 (at_ 0 0) 0x2A ∧ OperandIs .direct lastCell State.reset 0 ∧
    OperandIs .immediate (-1) (at_ 0 0) (-1) ∧ OperandIs .indirect 0 (at_ 0 0) 0x2A ∧
    OperandOutOfRange .direct firstBeyond (at_ 0 0) firstBeyond ∧
    OperandOutOfRange .indirect (-1) (at_ 0 0) (-1) ∧ OperandOutOfRange .indirect 3 (at_ 0 0) (-9) :=
  ⟨⟨valid _ (by decide), rfl⟩, ⟨lastCell_valid, rfl⟩, rfl, ⟨valid _ (by decide), valid _ (by decide), rfl⟩,
    ⟨firstBeyond_invalid, rfl⟩, .inl ⟨invalid _ (by decide), rfl⟩,
    .inr ⟨valid _ (by decide), invalid _ (by decide), rfl⟩⟩

/-! ### The cycle -/

theorem wit_StepRunsDecodedInstruction :
    (word 0x0A 5).running = true ∧ ValidAddress (word 0x0A 5).pc ∧
    decode ((word 0x0A 5).codeOp.read 0) ((word 0x0A 5).codeArg.read 0) = .ok (.lod .immediate 5) ∧
    loopCounts (.lod .immediate 5) (word 0x0A 5) = none ∧
    decode ((word 0x6A 0x1001).codeOp.read 0) ((word 0x6A 0x1001).codeArg.read 0) = .ok (.forLoop .immediate 0x1001) ∧
    loopCounts (.forLoop .immediate 0x1001) (word 0x6A 0x1001) = some (1, 1) :=
  ⟨rfl, valid _ (by decide), by decide, rfl, by decide, rfl⟩

theorem wit_FetchAtInvalidPc :
    ((at_ lastCell 0).running = true ∧ ValidAddress (at_ lastCell 0).pc) ∧
    ((at_ firstBeyond 0).running = true ∧ ¬ ValidAddress (at_ firstBeyond 0).pc) ∧
    ((at_ (-1) 0).running = true ∧ ¬ ValidAddress (at_ (-1) 0).pc) :=
  ⟨⟨rfl, lastCell_valid⟩, ⟨rfl, firstBeyond_invalid⟩, rfl, invalid _ (by decide)⟩

theorem wit_HaltedEngineIgnoresStep : State.reset.running = false := rfl

theorem wit_PlacedWordRunsNext :
    State.reset.codeOp.wf = true ∧ State.reset.codeArg.wf = true ∧
    decodeTableWord 40 0x50A = some (.lod .immediate 5) ∧
    step (State.reset.withFetchWord 40 0x50A) =
      .next { State.reset.withFetchWord 40 0x50A with acc := 5, pc := 1 } := ⟨rfl, rfl, by decide, rfl⟩

/-! ### The instructions -/

theorem wit_NopOnlyAdvances : Mode.immediate ≠ .direct ∧ Mode.indirect ≠ .direct ∧ Mode.mode3 ≠ .direct := by decide

theorem wit_LodLoadsOperand : OperandIs .indirect 0 (at_ 0 99) 0x2A ∧ OperandOutOfRange .indirect 3 (at_ 0 99) (-9) :=
  ⟨⟨valid _ (by decide), valid _ (by decide), rfl⟩, .inr ⟨valid _ (by decide), invalid _ (by decide), rfl⟩⟩

theorem wit_StoStoresAccumulator :
    ValidAddress 0 ∧ ValidAddress lastCell ∧ ¬ ValidAddress (-1) ∧ ¬ ValidAddress firstBeyond ∧
    (ValidAddress 1 ∧ (3 : Word) = (at_ 0 0).mem.read (1 : Word).toNat ∧ ValidAddress 3) ∧
    (ValidAddress 3 ∧ (-9 : Word) = (at_ 0 0).mem.read (3 : Word).toNat ∧ ¬ ValidAddress (-9)) :=
  ⟨valid _ (by decide), lastCell_valid, invalid _ (by decide), firstBeyond_invalid,
    ⟨valid _ (by decide), rfl, valid _ (by decide)⟩, valid _ (by decide), rfl, invalid _ (by decide)⟩

theorem wit_JumpSetsPcPerMode : ValidAddress 0 ∧ ValidAddress lastCell ∧ ¬ ValidAddress (-1) ∧ ¬ ValidAddress firstBeyond :=
  ⟨valid _ (by decide), lastCell_valid, invalid _ (by decide), firstBeyond_invalid⟩

theorem wit_JmpzJumpsOnZero :
    (at_ 0 0x80000000).acc ≠ 0 ∧ ((at_ 0 0).acc = 0 ∧ ValidAddress lastCell) ∧
    ((at_ 0 0).acc = 0 ∧ ¬ ValidAddress firstBeyond) :=
  ⟨by decide, ⟨rfl, lastCell_valid⟩, rfl, firstBeyond_invalid⟩

theorem wit_AddAddsOperand : OperandIs .direct 2 (at_ 0 1) 0x2A ∧ OperandOutOfRange .direct (-1) (at_ 0 1) (-1) :=
  ⟨⟨valid _ (by decide), rfl⟩, invalid _ (by decide), rfl⟩

theorem wit_SubSubtractsOperand :
    OperandIs .direct 3 (at_ 0 1) (-9) ∧ OperandOutOfRange .direct firstBeyond (at_ 0 1) firstBeyond :=
  ⟨⟨valid _ (by decide), rfl⟩, firstBeyond_invalid, rfl⟩

theorem wit_MulMultipliesOperand :
    OperandIs .indirect 1 (at_ 0 (-2)) (-9) ∧ OperandOutOfRange .indirect (-1) (at_ 0 1) (-1) :=
  ⟨⟨valid _ (by decide), valid _ (by decide), rfl⟩, .inl ⟨invalid _ (by decide), rfl⟩⟩

theorem wit_DivDividesByOperand :
    (OperandIs .direct 3 (at_ 0 100) (-9) ∧ (-9 : Word) ≠ 0) ∧ OperandIs .immediate 0 (at_ 0 9) 0 ∧
    OperandIs .direct 4 (at_ 0 9) 0 ∧ OperandOutOfRange .indirect 3 (at_ 0 9) (-9) :=
  ⟨⟨⟨valid _ (by decide), rfl⟩, by decide⟩, rfl, ⟨valid _ (by decide), rfl⟩,
    .inr ⟨valid _ (by decide), invalid _ (by decide), rfl⟩⟩

theorem wit_AndIsLogical :
    (Form.direct ≠ .indirect ∧ OperandIs .direct 4 (at_ 0 5) 0) ∧
    (Form.immediate ≠ .indirect ∧ OperandIs .immediate 2 (at_ 0 1) 2) ∧ ¬ ValidAddress firstBeyond :=
  ⟨⟨by decide, valid _ (by decide), rfl⟩, ⟨by decide, rfl⟩, firstBeyond_invalid⟩

theorem wit_NotIsLogical : Mode.immediate ≠ .direct ∧ Mode.indirect ≠ .direct ∧ Mode.mode3 ≠ .direct := by decide

theorem wit_CmplTestsCellNegative :
    ValidAddress 3 ∧ ValidAddress lastCell ∧ ¬ ValidAddress firstBeyond ∧ Mode.immediate ≠ .direct :=
  ⟨valid _ (by decide), lastCell_valid, firstBeyond_invalid, by decide⟩

theorem wit_CmpzTestsCellZero :
    ValidAddress 4 ∧ ValidAddress lastCell ∧ ¬ ValidAddress (-1) ∧ Mode.indirect ≠ .direct :=
  ⟨valid _ (by decide), lastCell_valid, invalid _ (by decide), by decide⟩

/-- The smallest and the largest count word that iterates. -/
theorem wit_ForStartsLoopOrSpins_iterates :
    (OperandIs .immediate 0x1001 (at_ 0 0) 0x1001 ∧ 0 ≤ (0x1001 : Word).toInt ∧ 0 < (0x1001 : Word).toNat % 4096 ∧
      0 < (0x1001 : Word).toNat / 4096) ∧
    (OperandIs .immediate 0x7FFFFFFF (at_ 0 0) 0x7FFFFFFF ∧ 0 ≤ (0x7FFFFFFF : Word).toInt ∧
      0 < (0x7FFFFFFF : Word).toNat % 4096 ∧ 0 < (0x7FFFFFFF : Word).toNat / 4096) :=
  ⟨⟨rfl, by decide, by decide, by decide⟩, rfl, by decide, by decide, by decide⟩

/-- The words that do not iterate: inner 0, outer 0, negative. -/
theorem wit_ForStartsLoopOrSpins_spins :
    (OperandIs .direct 4 (at_ 0 0) 0 ∧ (0 : Word).toNat % 4096 = 0) ∧
    (OperandIs .immediate 0xFFF (at_ 0 0) 0xFFF ∧ (0xFFF : Word).toNat / 4096 = 0) ∧
    (OperandIs .immediate 0x1000 (at_ 0 0) 0x1000 ∧ (0x1000 : Word).toNat % 4096 = 0) ∧
    (OperandIs .direct 3 (at_ 0 0) (-9) ∧ (-9 : Word).toInt < 0) ∧ ¬ ValidAddress firstBeyond :=
  ⟨⟨⟨valid _ (by decide), rfl⟩, by decide⟩, ⟨rfl, by decide⟩, ⟨rfl, by decide⟩,
    ⟨⟨valid _ (by decide), rfl⟩, by decide⟩, firstBeyond_invalid⟩

theorem wit_NonIteratingForSpins :
    (word 0x6A 5).running = true ∧ (word 0x6A 5).loopStack = [] ∧
    fetchInstr (word 0x6A 5) = .ok (.forLoop Form.immediate.mode 5) ∧ Form.immediate ≠ .indirect ∧
    OperandIs .immediate 5 (word 0x6A 5) 5 ∧ (5 : Word).toNat / 4096 = 0 :=
  ⟨rfl, rfl, rfl, by decide, rfl, by decide⟩

theorem wit_HaltStopsEngine : Mode.immediate ≠ .direct ∧ Mode.indirect ≠ .direct ∧ Mode.mode3 ≠ .direct := by decide

theorem wit_UndefinedOpcodesRaise :
    ((word 0x77 0).running = true ∧ ValidAddress (word 0x77 0).pc ∧ checkParity ((word 0x77 0).codeOp.read 0) = true ∧
      ((word 0x77 0).codeOp.read 0).toNat / 8 = 14) ∧
    ((word 0x81 0).running = true ∧ ValidAddress (word 0x81 0).pc ∧ checkParity ((word 0x81 0).codeOp.read 0) = true ∧
      16 ≤ ((word 0x81 0).codeOp.read 0).toNat / 8) ∧
    raisedBy (word 0xFF 0) = some (.undefinedOpcode 31) ∧
    assembleLine .jump (some (.ampersand, 1)) = some (0x1E, 1) :=
  ⟨⟨rfl, valid _ (by decide), by decide, by decide⟩, ⟨rfl, valid _ (by decide), by decide, by decide⟩, by decide,
    by decide⟩

/-! ### Conditions -/

/-- A condition raised inside a FOR, and at the top level. -/
theorem wit_FaultAction :
    raisedBy { word 0x44 0 with loopStack := [⟨1, 1, 1, 2⟩] } = some (.divideByZero .indirect) ∧
    raisedBy (word 0x12 0) = some (.illegalAddressingMode 2 .immediate) := by decide

theorem wit_IllegalModesRaise :
    ((Instr.lod .mode3 (-1)).opcode, (Instr.lod .mode3 (-1)).mode) = ((1, .mode3) : BitVec 4 × Mode) ∧
    handle (.halt .indirect 0) (at_ 0 0) = .error (.illegalAddressingMode 15 .indirect) := by decide

theorem wit_DivideByZeroOnlyByDiv :
    OperandIs .immediate 0 (at_ 0 9) 0 ∧ OperandIs .direct 4 (at_ 0 9) 0 ∧
    OperandIs .indirect 0 { at_ 0 9 with mem := [(0, 1)] } 0 ∧
    handle (.div .direct 4) (at_ 0 9) = .error (.divideByZero .direct) :=
  ⟨rfl, ⟨valid _ (by decide), rfl⟩, ⟨valid _ (by decide), valid _ (by decide), rfl⟩, rfl⟩

theorem wit_OutOfRangeNamesOffendingIndex :
    raisedBy (at_ (-3) 0) = some (.outOfRangeAddress (-3)) ∧
    raisedBy (word 0x09 (-1)) = some (.outOfRangeAddress (-1)) ∧
    raisedBy (word 0x14 2) = some (.outOfRangeAddress (-1)) ∧
    ((at_ (-3) 0).running = true ∧ ¬ ValidAddress (at_ (-3) 0).pc) :=
  ⟨by decide, by decide, by decide, rfl, invalid _ (by decide)⟩

theorem wit_PriorityOfConditions :
    ((at_ firstBeyond 0).running = true ∧ ¬ ValidAddress (at_ firstBeyond 0).pc) ∧
    ((word 0x0E 0).running = true ∧ ValidAddress (word 0x0E 0).pc ∧
      checkParity ((word 0x0E 0).codeOp.read 0) = false) ∧
    (ValidAddress (word 0x77 0).pc ∧ checkParity ((word 0x77 0).codeOp.read 0) = true ∧
      ((word 0x77 0).codeOp.read 0).toNat / 8 = 14) ∧
    (fetchInstr (word 0x0F (-1)) = .ok (.lod .mode3 (-1)) ∧ (Instr.lod .mode3 (-1)).opcode ≠ 14 ∧
      (Instr.lod .mode3 (-1)).wellFormed = false) ∧
    fetchInstr (word 0x44 0) = .ok (.div .indirect 0) :=
  ⟨⟨rfl, firstBeyond_invalid⟩, ⟨rfl, valid _ (by decide), by decide⟩, ⟨valid _ (by decide), by decide, by decide⟩,
    ⟨rfl, by decide, by decide⟩, rfl⟩

/-- A halted engine that keeps the record of an earlier fault. -/
def faulted : State := { at_ 0 9 with running := false, faultCause := 3, faultInfo := ⟨0, 8, 1⟩ }

theorem wit_FaultRegistersAreSticky :
    (raisedBy (faulted.setRunning true) = none ∧
      step (faulted.setRunning true) = .next { faulted.setRunning true with pc := 1 }) ∧
    (HostOp.setRunning true ≠ .reset ∧ HostOp.setRunning true ≠ .clear ∧
      hostMove (.setRunning true) faulted = .ok { faulted with running := true }) :=
  ⟨⟨by decide, rfl⟩, by decide, by decide, rfl⟩

theorem wit_EngineStopsByHaltOrFault :
    ((word 0x78 0).running = true ∧ step (word 0x78 0) = .next { word 0x78 0 with running := false }) ∧
    ((word 0x71 0).running = true ∧
      step (word 0x71 0) =
        .next { word 0x71 0 with running := false, faultCause := 4, faultInfo := ⟨0, 14, 0⟩ }) :=
  ⟨⟨rfl, rfl⟩, rfl, rfl⟩

/-! ### Frames and rules of the whole machine -/

theorem wit_OnlyNamedInstructionsWriteAcc :
    exec (.logNot .direct 0) (at_ 0 7) = .next (at_ 1 0) ∧ (at_ 1 0).acc ≠ (at_ 0 7).acc := ⟨rfl, by decide⟩

theorem wit_NonStoringInstructionsKeepMemory :
    (∀ m arg, Instr.cmpl .direct 3 ≠ .sto m arg) ∧ exec (.cmpl .direct 3) (at_ 0 7) = .next (at_ 1 1) ∧
    handle (.cmpl .direct 3) (at_ 0 7) = .ok (at_ 1 1) := ⟨nofun, rfl, rfl⟩

theorem wit_StoWritesOnlyItsTarget :
    (exec (.sto .indirect 1) (at_ 0 0) = .next { at_ 1 0 with mem := [(0, 2), (1, 3), (2, 0x2A)], changedIndex := 3 } ∧
      storeTarget .indirect 1 (at_ 0 0) = .ok 3 ∧ ValidAddress 3 ∧ (at_ 0 0).mem.wf = true) ∧
    (storeTarget .indirect 3 (at_ 0 0) = .ok (-9) ∧ ¬ ValidAddress (-9)) ∧
    storeTarget .mode3 0 (at_ 0 0) = .error (.illegalAddressingMode 2 .mode3) :=
  ⟨⟨rfl, rfl, valid _ (by decide), by decide⟩, ⟨rfl, invalid _ (by decide)⟩, rfl⟩

theorem wit_CyclesNeverWriteCodeNorStartEngine :
    step (at_ 0 7) = .next (at_ 1 7) ∧ (at_ 1 7).running = true := ⟨rfl, rfl⟩

/-- Two states that differ in the records alone, and their steps. -/
theorem wit_RecordsNeverSteerExecution :
    { at_ 0 9 with faultCause := 3, faultInfo := ⟨0, 8, 1⟩, changedIndex := 4 } =
      { faulted.setRunning true with changedIndex := 4 } ∧
    step (at_ 0 9) = .next (at_ 1 9) ∧
    step { faulted.setRunning true with changedIndex := 4 } =
      .next { faulted.setRunning true with pc := 1, changedIndex := 4 } := ⟨rfl, rfl, rfl⟩

/-- The last nested Step of a pass: a state in the invariant with a FOR in progress. -/
def inLoop : State := { word 0x2B 1 with loopStack := [⟨1, 2, 1, 2⟩] }

theorem wit_InvKeptByEveryCycle :
    StateInv inLoop ∧ step inLoop = .next { inLoop with acc := 10, pc := 1, loopStack := [⟨1, 2, 2, 1⟩] } :=
  ⟨{ memWf := by decide, memBounded := by decide, codeOpWf := by decide, codeOpBounded := by decide
     codeArgWf := by decide, codeArgBounded := by decide
     frames := by
      intro f hf
      rcases List.mem_singleton.1 hf with rfl
      exact ⟨valid _ (by decide), by decide, by decide, by decide, by decide, by decide⟩
     haltedNoLoop := nofun, causeKnown := by decide, changedKnown := .inl rfl }, rfl⟩

/-- The reset state is in the invariant and every host move is possible from it. -/
theorem reset_inv : StateInv State.reset :=
  { memWf := rfl, memBounded := rfl, codeOpWf := rfl, codeOpBounded := rfl, codeArgWf := rfl, codeArgBounded := rfl
    frames := by
      intro f hf
      cases hf
    haltedNoLoop := fun _ => rfl, causeKnown := by decide, changedKnown := .inl rfl }

theorem wit_InvKeptByHostMoves :
    StateInv State.reset ∧ hostMove (.setData 15 7) State.reset = .ok (State.reset.storeWord 15 7) ∧
    boot [(0x78, 0)] [] State.reset = .ok { State.reset with running := true, codeOp := [(0, 0x78)] } :=
  ⟨reset_inv, rfl, rfl⟩

/-! ### FOR and the loop stack -/

theorem wit_CountWordSplit :
    0 ≤ (0 : Word).toInt ∧ 0 ≤ (0x7FFFFFFF : Word).toInt ∧ (-1 : Word).toInt < 0 ∧ (0x80000000 : Word).toInt < 0 := by
  decide

/-- A frame with Steps left, at the end of a pass, and with one Step left. -/
theorem wit_CompleteCreditsOneStep :
    (Frame.ok ⟨1, 3, 2, 2⟩ ∧ 1 < (2 - 1) * 3 + 2) ∧ (Frame.ok ⟨1, 524287, 1, 4095⟩ ∧ 1 < (4095 - 1) * 524287 + 1) ∧
    (Frame.ok ⟨1, 3, 1, 1⟩ ∧ (1 - 1) * 3 + 1 = 1) :=
  ⟨⟨⟨valid _ (by decide), by decide, by decide, by decide, by decide, by decide⟩, by decide⟩,
    ⟨⟨valid _ (by decide), by decide, by decide, by decide, by decide, by decide⟩, by decide⟩,
    ⟨valid _ (by decide), by decide, by decide, by decide, by decide, by decide⟩, by decide⟩

/-- `0: FOR #1002`, `1: STO 5` of V-FOR: two passes of one Step. -/
def forSto : State :=
  { State.reset with
    acc := 9, running := true, codeOp := [(0, 0x6A), (1, 0x11)], codeArg := [(0, 0x1002), (1, 5)] }

/-- Its end in V-FOR: `pc = 2`, `Mem[5] = 9`, `ci = 5`. -/
def forStoEnd : State := { forSto with pc := 2, mem := [(5, 9)], changedIndex := 5 }

theorem wit_LoopStackEquivalentToRecursion :
    forSto.loopStack = [] ∧ TopStepsTo forSto forStoEnd ∧ RecStepsTo forSto forStoEnd :=
  ⟨rfl, ⟨3, none, rfl⟩, 2, rfl⟩

theorem wit_TopLevelStepEndsOnce :
    topStep 3 forSto = some (forStoEnd, none) ∧ topStep 4 forSto = some (forStoEnd, none) ∧
    StateInv State.reset ∧ topStep 1 State.reset = some (State.reset, none) := ⟨rfl, rfl, reset_inv, rfl⟩

/-! ### Arithmetic laws -/

theorem wit_DivTruncatesTowardZero :
    ((2 : Word) ≠ 0 ∧ ¬ ((at_ 0 (-7)).acc.toInt = -(2 ^ (W - 1) : Int) ∧ (2 : Word).toInt = -1)) ∧
    ((-1 : Word) ≠ 0 ∧ (at_ 0 0x80000000).acc.toInt = -(2 ^ (W - 1) : Int) ∧ (-1 : Word).toInt = -1) := by decide

theorem wit_WrappedPcIsExactWhenValid :
    ValidAddress 4 ∧ ValidAddress (wrap ((4 : Word).toInt + (-4 : Word).toInt)) ∧
    ValidAddress 0 ∧ ValidAddress (wrap ((0 : Word).toInt + (15 : Word).toInt)) :=
  ⟨valid _ (by decide), valid _ (by decide), valid _ (by decide), valid _ (by decide)⟩

/-! ### The host -/

theorem wit_ClearKeepsOnlyRunning : faulted.loopStack = [] ∧ (at_ 0 9).loopStack = [] := ⟨rfl, rfl⟩

theorem wit_SetRunningSetsOnlyTheFlag :
    faulted.loopStack = [] ∧
    (raisedBy (word 0x44 0) = some (.divideByZero .indirect) ∧
      step (word 0x44 0) = .next { word 0x44 0 with running := false, faultCause := 3, faultInfo := ⟨0, 8, 2⟩ }) ∧
    ((word 0x78 0).running = true ∧ fetchInstr (word 0x78 0) = .ok (.halt .direct 0) ∧
      step (word 0x78 0) = .next { word 0x78 0 with running := false }) :=
  ⟨rfl, ⟨by decide, rfl⟩, rfl, rfl, rfl⟩

theorem wit_HostAccessesOneCell :
    StateInv State.reset ∧ State.reset.loopStack = [] ∧ (0 ≤ (0 : Int) ∧ (0 : Int) < (Config.memSize : Int)) ∧
    (0 ≤ (Config.memSize : Int) - 1 ∧ (Config.memSize : Int) - 1 < (Config.memSize : Int)) ∧
    ¬ (0 ≤ (-1 : Int) ∧ (-1 : Int) < (Config.memSize : Int)) ∧
    ¬ (0 ≤ (Config.memSize : Int) ∧ (Config.memSize : Int) < (Config.memSize : Int)) := by
  have := Config.le_memSize
  exact ⟨reset_inv, rfl, by omega, by omega, by omega, by omega⟩

theorem wit_NoHostMoveDuringStep :
    (inLoop.loopStack ≠ [] ∧ HostOp.clear ≠ .reset) ∧ State.reset.loopStack = [] := by decide

theorem wit_BootLoadsProgram :
    State.reset.loopStack = [] ∧ [((0x0A, 5) : Byte × Word), (0x28, 0), (0x78, 0)].length ≤ Config.memSize ∧
    (List.replicate Config.memSize ((0x50, 0) : Byte × Word)).length ≤ Config.memSize := by
  have := Config.le_memSize
  simp only [List.length_replicate, List.length_cons, List.length_nil]
  exact ⟨rfl, by omega, le_refl _⟩

end Sys2Proof.Tests
end

/-! Proofs about the memory accesses of spec/20_memory.md: each access in range and out of range, and the frame of
a data write. -/

namespace Sys2Proof.Machine

/-! ### What each access answers, by the range of its index -/

theorem memWrite_valid {a : Word} {s : State} (v : Word) (h : ValidAddress a) :
    memWrite a v s = .ok (s.storeWord a v) := by
  rcases memWrite_cases a v s with ⟨_, e⟩ | ⟨hn, _⟩
  · exact e
  · exact absurd h hn

theorem memWrite_invalid {a : Word} {s : State} (v : Word) (h : ¬ ValidAddress a) :
    memWrite a v s = .error (.outOfRangeAddress a) := by
  rcases memWrite_cases a v s with ⟨hv, _⟩ | ⟨_, e⟩
  · exact absurd hv h
  · exact e

theorem codeRead_valid {a : Word} {s : State} (h : ValidAddress a) :
    codeRead a s = .ok (s.codeOp.read a.toNat, s.codeArg.read a.toNat) := by
  rcases codeRead_cases a s with ⟨_, e⟩ | ⟨hn, _⟩
  · exact e
  · exact absurd h hn

theorem codeRead_invalid {a : Word} {s : State} (h : ¬ ValidAddress a) :
    codeRead a s = .error (.outOfRangeAddress a) := by
  rcases codeRead_cases a s with ⟨hv, _⟩ | ⟨_, e⟩
  · exact absurd hv h
  · exact e

/-! ### What the data write itself does to the state -/

/-- The written word is the whole of `v` (20_memory.md R43); the canonical form is needed because writing 0 unlists
the index, and a store that lists it twice would still show the second entry. -/
theorem State.storeWord_read_same {s : State} (a v : Word) (h : s.mem.wf = true) :
    (s.storeWord a v).mem.read a.toNat = v :=
  Memory.read_write_same a.toNat v h

theorem State.storeWord_read_other (s : State) (a v : Word) {b : Nat} (h : b ≠ a.toNat) :
    (s.storeWord a v).mem.read b = s.mem.read b :=
  Memory.read_write_other s.mem v h

/-- The frame of a data write: it changes no field but `mem` and `changedIndex`. -/
theorem State.storeWord_frame (s : State) (a v : Word) :
    s.storeWord a v = { s with mem := (s.storeWord a v).mem, changedIndex := a } := rfl

/-! ### The statements -/

/-- Settles O8: the next state of a write in range is `storeWord`, whose effect and frame are the laws above. -/
theorem dataWriteStoresOneWord : Obligations.DataWriteStoresOneWord := by
  intro a v s
  constructor
  · intro hrange hwf
    exact ⟨s.storeWord a v, memWrite_valid v hrange, State.storeWord_read_same a v hwf,
      State.storeWord_changedIndex s a v, fun _ hb => State.storeWord_read_other s a v hb,
      State.storeWord_frame s a v⟩
  · exact memWrite_invalid v

/-- Settles O7: both reads make the same range check, so one case split on the index serves both. -/
theorem readsCheckRange : Obligations.ReadsCheckRange := by
  intro a s
  constructor
  · intro hrange
    exact ⟨memRead_valid hrange, codeRead_valid hrange⟩
  · intro hrange
    exact ⟨memRead_invalid hrange, codeRead_invalid hrange⟩

end Sys2Proof.Machine

/-! Proofs about the parity check of spec/30_encoding.md R65: the decoder rejects a word as corrupted exactly when its
parity is odd, and nothing after the decoder raises CorruptedInstruction. -/

namespace Sys2Proof

/-! ### The decoder rejects a word as corrupted exactly when its parity is odd -/

theorem countP_eq_sum_toNat {α : Type} (p : α → Bool) (l : List α) :
    l.countP p = (l.map fun a => (p a).toNat).sum := by
  induction l with
  | nil => rfl
  | cons a l ih => cases h : p a <;> simp [h, ih, Nat.add_comm]

/-- The population count is the sum of the bits (30_encoding.md R62). -/
theorem popcount_eq_sum {n : Nat} (v : BitVec n) :
    popcount v = ((List.range n).map fun k => (v.getLsbD k).toNat).sum :=
  countP_eq_sum_toNat v.getLsbD (List.range n)

theorem checkParity_eq_false_iff (op : Byte) : checkParity op = false ↔ popcount op % 2 = 1 := by
  simp [checkParity]

/-- The opcode map refuses a word only for want of a handler. -/
theorem ofFields_error {oc : BitVec 5} {m : Mode} {arg : Word} {r : Reject}
    (h : Instr.ofFields oc m arg = .error r) : r = .noHandler oc := by
  unfold Instr.ofFields at h
  split at h <;> cases h
  rfl

theorem decode_eq_corrupted_iff (op : Byte) (arg : Word) :
    decode op arg = .error .corrupted ↔ checkParity op = false := by
  unfold decode
  split
  · next hp =>
    constructor
    · intro h
      cases ofFields_error h
    · intro h
      rw [hp] at h
      cases h
  · next hp => simpa using hp

namespace Machine

/-! ### What the handlers raise -/

/-- A bind that raises a condition: its first part raised it, or the rest did. -/
theorem bind_eq_error {α β : Type} {x : Except Condition α} {f : α → Except Condition β} {c : Condition}
    (h : x >>= f = .error c) : x = .error c ∨ ∃ a, x = .ok a ∧ f a = .error c := by
  cases x with
  | ok a => exact .inr ⟨a, rfl, h⟩
  | error d => cases h; exact .inl rfl

/-- Everything the handler of an instruction can raise: four of the five conditions of 60_exceptions.md R170. -/
inductive Raises (i : Instr) : Condition → Prop where
  | illegalMode (h : i.mode ∉ i.legalModes) : Raises i (.illegalAddressingMode i.opcode i.mode)
  | zeroDivisor (m : Mode) (arg : Word) (h : i = .div m arg) : Raises i (.divideByZero m)
  | unusedOpcode (m : Mode) (arg : Word) (h : i = .unused0E m arg) : Raises i (.undefinedOpcode 0xE)
  | outOfRange (a : Word) (h : ¬ ValidAddress a) : Raises i (.outOfRangeAddress a)

theorem Raises.ne_corrupted {i : Instr} {c : Condition} (h : Raises i c) : c ≠ .corruptedInstruction := by
  cases h <;> nofun

section
variable {i : Instr} {s : State} {c : Condition} {m : Mode} {a v : Word}

theorem memRead_raises (h : memRead a s = .error c) : Raises i c := by
  rcases memRead_cases a s with ⟨_, e⟩ | ⟨hv, e⟩ <;> rw [e] at h <;> cases h
  exact .outOfRange a hv

theorem memWrite_raises (h : memWrite a v s = .error c) : Raises i c := by
  rcases memWrite_cases a v s with ⟨_, e⟩ | ⟨hv, e⟩ <;> rw [e] at h <;> cases h
  exact .outOfRange a hv

theorem requireMode_raises {legal : List Mode} (hl : i.legalModes = legal)
    (h : requireMode i.opcode legal i.mode = .error c) : Raises i c := by
  unfold requireMode at h
  split at h <;> cases h
  exact .illegalMode (by rwa [hl])

theorem requireForm_raises {legal : List Form} (hl : i.legalModes = legal.map Form.mode)
    (h : requireForm i.opcode legal i.mode = .error c) : Raises i c := by
  unfold requireForm at h
  split at h <;> cases h
  exact .illegalMode (by simp_all)

theorem value_raises {f : Form} (h : value f a s = .error c) : Raises i c := by
  obtain ⟨b, hb, rfl⟩ := value_error h
  exact .outOfRange b hb

theorem storeTarget_raises (h : storeTarget m a s = .error c) : Raises (.sto m a) c := by
  cases m with
  | direct => cases h
  | indirect => exact memRead_raises h
  | immediate | mode3 =>
    cases h
    exact .illegalMode (i := .sto _ a) (by simp [Instr.legalModes, Instr.mode])

theorem jumpTarget_raises (h : jumpTarget m a s = .error c) : Raises i c := by
  cases m with
  | direct | immediate => cases h
  | indirect =>
    rcases bind_eq_error h with h | ⟨d, _, h⟩
    · exact memRead_raises h
    · cases h
  | mode3 => exact memRead_raises h

/-- Everything the handlers raise; the counterpart of `handle_effect`. -/
theorem handle_raises (h : handle i s = .error c) : Raises i c := by
  cases i with
  | nop m arg | logNot m arg | halt m arg =>
    rcases bind_eq_error h with h | ⟨_, _, h⟩
    · exact requireMode_raises rfl h
    · cases h
  | cmpl m arg | cmpz m arg =>
    rcases bind_eq_error h with h | ⟨_, _, h⟩
    · exact requireMode_raises rfl h
    · rcases bind_eq_error h with h | ⟨_, _, h⟩
      · exact memRead_raises h
      · cases h
  | lod m arg | add m arg | sub m arg | mul m arg | logAnd m arg =>
    rcases bind_eq_error h with h | ⟨f, _, h⟩
    · exact requireForm_raises rfl h
    · rcases bind_eq_error h with h | ⟨v, _, h⟩
      · exact value_raises h
      · cases h
  | div m arg =>
    rcases bind_eq_error h with h | ⟨f, _, h⟩
    · exact requireForm_raises rfl h
    · rcases bind_eq_error h with h | ⟨v, _, h⟩
      · exact value_raises h
      · split at h <;> cases h
        exact .zeroDivisor m arg rfl
  | sto m arg =>
    rcases bind_eq_error h with h | ⟨a, _, h⟩
    · exact storeTarget_raises h
    · rcases bind_eq_error h with h | ⟨t, _, h⟩
      · exact memWrite_raises h
      · cases h
  | jump m arg =>
    rcases bind_eq_error h with h | ⟨p, _, h⟩
    · exact jumpTarget_raises h
    · cases h
  | jmpz m arg =>
    simp only [handle, handleJmpz] at h
    split at h
    · split at h <;> cases h
      exact jumpTarget_raises ‹_›
    · cases h
  | forLoop m arg =>
    rcases bind_eq_error h with h | ⟨v, _, h⟩
    · rcases bind_eq_error h with h | ⟨f, _, h⟩
      · exact requireForm_raises rfl h
      · exact value_raises h
    · split at h <;> cases h
  | unused0E m arg =>
    cases h
    exact .unusedOpcode m arg rfl

end

/-! ### Which cycles raise CorruptedInstruction, and what such a cycle does -/

/-- A fetch at a valid index raises CorruptedInstruction exactly when the decoder says the word is corrupted. -/
theorem fetchInstr_corrupted_iff {s : State} (hpc : ValidAddress s.pc) :
    fetchInstr s = .error .corruptedInstruction ↔
      decode (s.codeOp.read s.pc.toNat) (s.codeArg.read s.pc.toNat) = .error .corrupted := by
  simp only [fetchInstr, codeRead_valid hpc, bind_ok]
  split
  · next hd => simp [hd]
  · next r hd => cases r <;> simp [hd, rejectCondition]

/-- Only the fetch stage can raise CorruptedInstruction. -/
theorem raisedBy_corrupted_iff {s : State} (hrun : s.running = true) :
    raisedBy s = some .corruptedInstruction ↔ fetchInstr s = .error .corruptedInstruction := by
  simp only [raisedBy, hrun, if_true]
  split
  · next hf => simp [hf]
  · next i hf =>
    split
    · next c hh => simp [hf, (handle_raises hh).ne_corrupted]
    · next hh => simp [hf]

/-- A cycle that raises a condition takes the fault action on its own start state (60_exceptions.md R180). -/
theorem step_of_raisedBy {s : State} {c : Condition} (h : raisedBy s = some c) :
    step s = .next (s.takeFault c) := by
  rcases step_cases s with ⟨hrun, _⟩ | ⟨_, d, hd, hstep⟩ | ⟨_, hnone, _⟩
  · simp [raisedBy, hrun] at h
  · rw [h] at hd
    cases hd
    exact hstep
  · rw [h] at hnone
    cases hnone

/-- R65 for one cycle: it raises CorruptedInstruction exactly when the fetched byte's population count is odd. -/
theorem raisedBy_corrupted_iff_odd {s : State} (hrun : s.running = true) (hpc : ValidAddress s.pc) :
    raisedBy s = some .corruptedInstruction ↔ popcount (s.codeOp.read s.pc.toNat) % 2 = 1 := by
  rw [raisedBy_corrupted_iff hrun, fetchInstr_corrupted_iff hpc, decode_eq_corrupted_iff, checkParity_eq_false_iff]

/-- Settles O4: the parity decides whether the cycle raises the condition, and a cycle that raises one takes the fault
action. -/
theorem oddParityRaisesCorrupted : Obligations.OddParityRaisesCorrupted := by
  intro s hrun hpc op ones
  have hones : popcount op = ones.sum := popcount_eq_sum op
  have hraised : raisedBy s = some .corruptedInstruction ↔ ones.sum % 2 = 1 :=
    hones ▸ raisedBy_corrupted_iff_odd hrun hpc
  constructor
  · intro hodd
    have hcorrupted := hraised.2 hodd
    exact ⟨hcorrupted, step_of_raisedBy hcorrupted⟩
  · intro heven hcorrupted
    have hodd := hraised.1 hcorrupted
    omega

end Machine

end Sys2Proof

/-! Proofs about one Step of spec/40_step_and_system.md: resolving an operand (R91), the fetch (R86) and NOP (R96).
The laws they rest on (what `value` answers, the decoder on a packed byte, `exec` from its handler's answer) are stated
for every instruction. -/

namespace Sys2Proof

/-! ### The decoder on a packed word -/

/-- Unpacking gives the packed fields back; the opcode gains the bit 7 that `pack` leaves clear
(30_encoding.md R63, R64). -/
theorem unpack_pack (oc : BitVec 4) (m : Mode) : unpack (pack oc m) = (oc.setWidth 5, m) := by
  cases m <;> revert oc <;> decide

theorem decode_pack (oc : BitVec 4) (m : Mode) (arg : Word) :
    decode (pack oc m) arg = Instr.ofFields (oc.setWidth 5) m arg := by
  rw [decode, if_pos (Laws.pack_even oc m).1, unpack_pack]

/-- The packed byte of an instruction decodes to it, whatever its mode and `arg` (30_encoding.md R66, R71). -/
theorem decode_of_pack_eq (i : Instr) {op : Byte} (h : pack i.opcode i.mode = op) : decode op i.arg = .ok i := by
  rw [← h, decode_pack]
  cases i <;> rfl

namespace Machine

/-! ### Operand resolution -/

section
variable {f : Form} {a v arg : Word} {s : State} {c : Condition}

/-- The first read of indirect form succeeds: what is left is the second one. -/
theorem value_indirect_of_valid (h : ValidAddress arg) :
    value .indirect arg s = memRead (s.mem.read arg.toNat) s := by
  rw [value, memRead_valid h, bind_ok]

/-- The first read of indirect form faults: the second one is not attempted (40_step_and_system.md R91). -/
theorem value_indirect_of_invalid (h : ¬ ValidAddress arg) :
    value .indirect arg s = .error (.outOfRangeAddress arg) := by
  rw [value, memRead_invalid h, bind_error]

theorem value_of_operandIs (h : OperandIs f arg s v) : value f arg s = .ok v := by
  cases f with
  | direct =>
    obtain ⟨harg, rfl⟩ := h
    exact memRead_valid harg
  | immediate =>
    obtain rfl : v = arg := h
    rfl
  | indirect =>
    obtain ⟨harg, hptr, rfl⟩ := h
    rw [value_indirect_of_valid harg, memRead_valid hptr]

theorem value_of_operandOutOfRange (h : OperandOutOfRange f arg s a) :
    value f arg s = .error (.outOfRangeAddress a) := by
  cases f with
  | direct =>
    obtain ⟨harg, rfl⟩ := h
    exact memRead_invalid harg
  | immediate => exact h.elim
  | indirect =>
    rcases h with ⟨harg, rfl⟩ | ⟨harg, hptr, rfl⟩
    · exact value_indirect_of_invalid harg
    · rw [value_indirect_of_valid harg, memRead_invalid hptr]

/-- Every operand is a word or out of range; with the two lemmas above, this is all `value` can answer. -/
theorem operand_cases (f : Form) (arg : Word) (s : State) :
    (∃ v, OperandIs f arg s v) ∨ ∃ a, OperandOutOfRange f arg s a := by
  cases f with
  | direct =>
    by_cases harg : ValidAddress arg
    · exact .inl ⟨_, harg, rfl⟩
    · exact .inr ⟨_, harg, rfl⟩
  | immediate => exact .inl ⟨arg, rfl⟩
  | indirect =>
    by_cases harg : ValidAddress arg
    · by_cases hptr : ValidAddress (s.mem.read arg.toNat)
      · exact .inl ⟨_, harg, hptr, rfl⟩
      · exact .inr ⟨_, .inr ⟨harg, hptr, rfl⟩⟩
    · exact .inr ⟨_, .inl ⟨harg, rfl⟩⟩

theorem value_eq_ok_iff : value f arg s = .ok v ↔ OperandIs f arg s v := by
  refine ⟨fun h => ?_, value_of_operandIs⟩
  rcases operand_cases f arg s with ⟨w, hw⟩ | ⟨a, ha⟩
  · rw [value_of_operandIs hw] at h
    cases h
    exact hw
  · rw [value_of_operandOutOfRange ha] at h
    cases h

theorem value_eq_error_iff :
    value f arg s = .error c ↔ ∃ a, OperandOutOfRange f arg s a ∧ c = .outOfRangeAddress a := by
  constructor
  · intro h
    rcases operand_cases f arg s with ⟨w, hw⟩ | ⟨a, ha⟩
    · rw [value_of_operandIs hw] at h
      cases h
    · rw [value_of_operandOutOfRange ha] at h
      cases h
      exact ⟨a, ha, rfl⟩
  · rintro ⟨a, ha, rfl⟩
    exact value_of_operandOutOfRange ha

end

/-- Settles O10: an operand is a word or out of range, and `value` answers each with what the statement says. -/
theorem operandResolution : Obligations.OperandResolution :=
  fun _ _ _ => ⟨fun _ => value_eq_ok_iff, fun _ => value_eq_error_iff⟩

/-! ### The fetch -/

section
variable {s : State}

theorem fetchInstr_invalid (hpc : ¬ ValidAddress s.pc) : fetchInstr s = .error (.outOfRangeAddress s.pc) := by
  rw [fetchInstr, codeRead_invalid hpc, bind_error]

theorem fetchInstr_of_decode_ok {i : Instr} (hpc : ValidAddress s.pc)
    (hd : decode (s.codeOp.read s.pc.toNat) (s.codeArg.read s.pc.toNat) = .ok i) : fetchInstr s = .ok i := by
  simp only [fetchInstr, codeRead_valid hpc, bind_ok, hd]

theorem fetchInstr_of_decode_error {r : Reject} (hpc : ValidAddress s.pc)
    (hd : decode (s.codeOp.read s.pc.toNat) (s.codeArg.read s.pc.toNat) = .error r) :
    fetchInstr s = .error (rejectCondition r) := by
  simp only [fetchInstr, codeRead_valid hpc, bind_ok, hd]

/-- A condition of the fetch stage is the one the cycle raises: no handler runs. -/
theorem raisedBy_of_fetchInstr_error {c : Condition} (hrun : s.running = true) (hf : fetchInstr s = .error c) :
    raisedBy s = some c := by
  simp only [raisedBy, hrun, if_true, hf]

end

/-- Settles O12: at a valid `pc` by what the decoder says of the word there; at an invalid one the fetch raises, and
a cycle that raises takes the fault action and no other. -/
theorem fetchAtInvalidPc : Obligations.FetchAtInvalidPc := by
  intro s hrun
  constructor
  · intro hpc
    cases hd : decode (s.codeOp.read s.pc.toNat) (s.codeArg.read s.pc.toNat) with
    | ok i => exact fetchInstr_of_decode_ok hpc hd
    | error r =>
      cases r with
      | corrupted => exact fetchInstr_of_decode_error hpc hd
      | noHandler oc => exact fetchInstr_of_decode_error hpc hd
  · intro hpc
    exact step_of_raisedBy (raisedBy_of_fetchInstr_error hrun (fetchInstr_invalid hpc))

/-! ### Executing an instruction from its handler's answer -/

section
variable {i : Instr} {s t : State} {c : Condition}

theorem exec_of_handle_ok (h : handle i s = .ok t) : exec i s = .next t := by
  rw [exec_eq_settle, h, settle]

theorem exec_of_handle_error (h : handle i s = .error c) : exec i s = .next (s.takeFault c) := by
  rw [exec_eq_settle, h, settle]

end

theorem requireMode_legal {oc : BitVec 4} {legal : List Mode} {m : Mode} (h : m ∈ legal) :
    requireMode oc legal m = .ok () := if_pos h

theorem requireMode_illegal {oc : BitVec 4} {legal : List Mode} {m : Mode} (h : m ∉ legal) :
    requireMode oc legal m = .error (.illegalAddressingMode oc m) := if_neg h

/-- The sequencing rule in the arithmetic of words (40_step_and_system.md R92). -/
theorem State.advance_eq (s : State) : s.advance = { s with pc := s.pc + 1 } := by
  rw [State.advance, wrap_succ, State.setPc]

/-! ### NOP -/

theorem handle_nop_direct (arg : Word) (s : State) : handle (.nop .direct arg) s = .ok s.advance := by
  rw [handle, handleNop, requireMode_legal (List.mem_singleton_self _), bind_ok, pure_ok]

theorem handle_nop_illegal {m : Mode} (arg : Word) (s : State) (h : m ≠ .direct) :
    handle (.nop m arg) s = .error (.illegalAddressingMode 0x0 m) := by
  rw [handle, handleNop, requireMode_illegal (mt List.mem_singleton.1 h), bind_error]

/-- Settles O16: its four bytes are the packed ones, and its handler is the mode check and then `advance`. -/
theorem nopOnlyAdvances : Obligations.NopOnlyAdvances := by
  intro arg
  refine ⟨⟨decode_of_pack_eq (.nop .direct arg) (by decide : pack 0x0 .direct = 0x00),
    decode_of_pack_eq (.nop .immediate arg) (by decide : pack 0x0 .immediate = 0x03),
    decode_of_pack_eq (.nop .indirect arg) (by decide : pack 0x0 .indirect = 0x05),
    decode_of_pack_eq (.nop .mode3 arg) (by decide : pack 0x0 .mode3 = 0x06)⟩,
    fun s => ⟨?_, fun m hm => ?_⟩⟩
  · rw [exec_of_handle_ok (handle_nop_direct arg s), State.advance_eq]
  · exact exec_of_handle_error (handle_nop_illegal arg s hm)

end Machine

end Sys2Proof

/-! Proofs about LOD (spec/41_load_store.md). The laws of `requireForm`, the check every handler that resolves its operand
by `value` begins with, are stated for all of these handlers. -/

namespace Sys2Proof.Machine

/-! ### The form check -/

section
variable {oc : BitVec 4} {legal : List Form} {m : Mode} {f : Form}

theorem Form.mode_injective : Function.Injective Form.mode := by
  intro f g
  cases f <;> cases g <;> decide

theorem requireForm_legal (h : f ∈ legal) : requireForm oc legal f.mode = .ok f := by
  cases hfind : legal.find? (fun g => g.mode == f.mode) with
  | none => exact absurd (beq_self_eq_true f.mode) (List.find?_eq_none.1 hfind f h)
  | some g =>
    have hmode := List.find?_some hfind
    obtain rfl : g = f := Form.mode_injective (eq_of_beq hmode)
    rw [requireForm, hfind]

/-- A mode that encodes none of the legal forms is refused before any operand is read
(40_step_and_system.md R90). -/
theorem requireForm_illegal (h : m ∉ legal.map Form.mode) :
    requireForm oc legal m = .error (.illegalAddressingMode oc m) := by
  have hnone : legal.find? (fun f => f.mode == m) = none :=
    List.find?_eq_none.2 fun f hf hfm => h (List.mem_map.2 ⟨f, hf, eq_of_beq hfm⟩)
  rw [requireForm, hnone]

end

/-- A handler that takes every form refuses none of them. -/
theorem Form.mem_all (f : Form) : f ∈ [Form.direct, .immediate, .indirect] := by
  cases f <;> decide

/-! ### LOD -/

section
variable {f : Form} {a v arg : Word} {s : State}

/-- LOD in an operand form is `value` and then the write of `acc`. -/
theorem handle_lod_form (f : Form) (arg : Word) (s : State) :
    handle (.lod f.mode arg) s = value f arg s >>= fun v => pure (s.setAcc v).advance := by
  rw [handle, handleLod, requireForm_legal f.mem_all, bind_ok]

theorem handle_lod_of_operandIs (h : OperandIs f arg s v) :
    handle (.lod f.mode arg) s = .ok (s.setAcc v).advance := by
  rw [handle_lod_form, value_of_operandIs h, bind_ok, pure_ok]

theorem handle_lod_of_operandOutOfRange (h : OperandOutOfRange f arg s a) :
    handle (.lod f.mode arg) s = .error (.outOfRangeAddress a) := by
  rw [handle_lod_form, value_of_operandOutOfRange h, bind_error]

theorem handle_lod_mode3 (arg : Word) (s : State) :
    handle (.lod .mode3 arg) s = .error (.illegalAddressingMode 0x1 .mode3) := by
  rw [handle, handleLod, requireForm_illegal (by decide), bind_error]

theorem decode_lod (arg : Word) :
    decode 0x09 arg = .ok (.lod .direct arg) ∧ decode 0x0A arg = .ok (.lod .immediate arg) ∧
      decode 0x0C arg = .ok (.lod .indirect arg) ∧ decode 0x0F arg = .ok (.lod .mode3 arg) :=
  ⟨decode_of_pack_eq (.lod .direct arg) (by decide : pack 0x1 .direct = 0x09),
    decode_of_pack_eq (.lod .immediate arg) (by decide : pack 0x1 .immediate = 0x0A),
    decode_of_pack_eq (.lod .indirect arg) (by decide : pack 0x1 .indirect = 0x0C),
    decode_of_pack_eq (.lod .mode3 arg) (by decide : pack 0x1 .mode3 = 0x0F)⟩

end

/-- Settles O17: its four bytes are the packed ones, and its handler is the form check, the operand, then the write of
`acc` and `advance`; a fault in either of the first two leaves `acc` as it was. -/
theorem lodLoadsOperand : Obligations.LodLoadsOperand := by
  intro arg
  refine ⟨decode_lod arg, fun s f => ⟨fun v hv => ?_, fun a ha => ?_, ?_⟩⟩
  · rw [exec_of_handle_ok (handle_lod_of_operandIs hv), State.advance_eq, State.setAcc]
  · exact exec_of_handle_error (handle_lod_of_operandOutOfRange ha)
  · exact exec_of_handle_error (handle_lod_mode3 arg s)

end Sys2Proof.Machine

/-! Proofs about NOT, CMPL and CMPZ (spec/44_logic_compare.md): a truth value into `acc`, and the direct mode alone.
CMPL and CMPZ are one handler with two tests, so its three answers are stated for every test. -/

namespace Sys2Proof.Machine

/-! ### Truth values -/

theorem truth_decide (p : Prop) [Decidable p] : truth (decide p) = if p then 1 else 0 := by
  simp only [truth, decide_eq_true_eq]

theorem not_nonZero_eq_decide (v : Word) : (!nonZero v) = decide (v = 0) := by
  rw [nonZero, bne, Bool.not_not, Bool.beq_eq_decide_eq]

/-- What a logic instruction does to the state once its result is known. -/
theorem State.setAcc_advance_eq (s : State) (v : Word) : (s.setAcc v).advance = { s with acc := v, pc := s.pc + 1 } := by
  rw [State.advance_eq, State.setAcc]

/-! ### The mode check of a handler that takes the direct mode alone -/

theorem requireMode_direct (oc : BitVec 4) : requireMode oc [.direct] .direct = .ok () :=
  requireMode_legal (List.mem_singleton_self _)

theorem requireMode_ne_direct {oc : BitVec 4} {m : Mode} (h : m ≠ .direct) :
    requireMode oc [.direct] m = .error (.illegalAddressingMode oc m) :=
  requireMode_illegal (mt List.mem_singleton.1 h)

/-! ### NOT -/

theorem handle_logNot_direct (arg : Word) (s : State) :
    handle (.logNot .direct arg) s = .ok (s.setAcc (if s.acc = 0 then 1 else 0)).advance := by
  rw [handle, handleNot, requireMode_direct, bind_ok, pure_ok, not_nonZero_eq_decide, truth_decide]

theorem handle_logNot_illegal {m : Mode} (arg : Word) (s : State) (h : m ≠ .direct) :
    handle (.logNot m arg) s = .error (.illegalAddressingMode 0xA m) := by
  rw [handle, handleNot, requireMode_ne_direct h, bind_error]

theorem decode_logNot (arg : Word) :
    decode 0x50 arg = .ok (.logNot .direct arg) ∧ decode 0x53 arg = .ok (.logNot .immediate arg) ∧
      decode 0x55 arg = .ok (.logNot .indirect arg) ∧ decode 0x56 arg = .ok (.logNot .mode3 arg) :=
  ⟨decode_of_pack_eq (.logNot .direct arg) (by decide : pack 0xA .direct = 0x50),
    decode_of_pack_eq (.logNot .immediate arg) (by decide : pack 0xA .immediate = 0x53),
    decode_of_pack_eq (.logNot .indirect arg) (by decide : pack 0xA .indirect = 0x55),
    decode_of_pack_eq (.logNot .mode3 arg) (by decide : pack 0xA .mode3 = 0x56)⟩

/-- Settles O26: its four bytes are the packed ones, and its handler is the mode check and then the write of `acc`;
`arg` is never looked at. -/
theorem notIsLogical : Obligations.NotIsLogical := by
  intro arg
  refine ⟨decode_logNot arg, fun s => ⟨?_, fun m hm => ?_⟩⟩
  · rw [exec_of_handle_ok (handle_logNot_direct arg s), State.setAcc_advance_eq]
  · exact exec_of_handle_error (handle_logNot_illegal arg s hm)

/-! ### The three answers of CMPL and CMPZ's common handler -/

section
variable {oc : BitVec 4} {test : Word → Bool} {m : Mode} {arg : Word} {s : State}

theorem compareCell_valid (h : ValidAddress arg) :
    compareCell oc test .direct arg s = .ok (s.setAcc (truth (test (s.mem.read arg.toNat)))).advance := by
  rw [compareCell, requireMode_direct, bind_ok, memRead_valid h, bind_ok, pure_ok]

theorem compareCell_invalid (h : ¬ ValidAddress arg) :
    compareCell oc test .direct arg s = .error (.outOfRangeAddress arg) := by
  rw [compareCell, requireMode_direct, bind_ok, memRead_invalid h, bind_error]

/-- The mode is refused before the cell is read, so this holds for every `arg` (40_step_and_system.md R90). -/
theorem compareCell_illegal (h : m ≠ .direct) :
    compareCell oc test m arg s = .error (.illegalAddressingMode oc m) := by
  rw [compareCell, requireMode_ne_direct h, bind_error]

end

/-- An instruction `mk` whose handler is `compareCell` with the test `P`: the next state in each of the three cases. -/
theorem exec_of_handle_compareCell {oc : BitVec 4} {P : Word → Prop} [DecidablePred P] {mk : Mode → Word → Instr}
    (hmk : ∀ m arg s, handle (mk m arg) s = compareCell oc (fun v => decide (P v)) m arg s) (arg : Word) (s : State) :
    (ValidAddress arg → exec (mk .direct arg) s =
      .next { s with acc := if P (s.mem.read arg.toNat) then 1 else 0, pc := s.pc + 1 }) ∧
    (¬ ValidAddress arg → exec (mk .direct arg) s = .next (s.takeFault (.outOfRangeAddress arg))) ∧
    ∀ m, m ≠ .direct → exec (mk m arg) s = .next (s.takeFault (.illegalAddressingMode oc m)) := by
  refine ⟨fun hv => ?_, fun hv => ?_, fun m hm => ?_⟩
  · rw [exec_of_handle_ok ((hmk .direct arg s).trans (compareCell_valid hv)), truth_decide, State.setAcc_advance_eq]
  · exact exec_of_handle_error ((hmk .direct arg s).trans (compareCell_invalid hv))
  · exact exec_of_handle_error ((hmk m arg s).trans (compareCell_illegal hm))

/-! ### CMPL -/

theorem handle_cmpl (m : Mode) (arg : Word) (s : State) :
    handle (.cmpl m arg) s = compareCell 0xB (fun v => decide (v.toInt < 0)) m arg s := rfl

theorem decode_cmpl (arg : Word) :
    decode 0x59 arg = .ok (.cmpl .direct arg) ∧ decode 0x5A arg = .ok (.cmpl .immediate arg) ∧
      decode 0x5C arg = .ok (.cmpl .indirect arg) ∧ decode 0x5F arg = .ok (.cmpl .mode3 arg) :=
  ⟨decode_of_pack_eq (.cmpl .direct arg) (by decide : pack 0xB .direct = 0x59),
    decode_of_pack_eq (.cmpl .immediate arg) (by decide : pack 0xB .immediate = 0x5A),
    decode_of_pack_eq (.cmpl .indirect arg) (by decide : pack 0xB .indirect = 0x5C),
    decode_of_pack_eq (.cmpl .mode3 arg) (by decide : pack 0xB .mode3 = 0x5F)⟩

/-- Settles O27: its handler is `compareCell` with the signed test, whose three answers are the three clauses. -/
theorem cmplTestsCellNegative : Obligations.CmplTestsCellNegative :=
  fun arg => ⟨decode_cmpl arg, exec_of_handle_compareCell handle_cmpl arg⟩

/-! ### CMPZ -/

theorem handle_cmpz (m : Mode) (arg : Word) (s : State) :
    handle (.cmpz m arg) s = compareCell 0xC (fun v => decide (v = 0)) m arg s := by
  simp only [handle, handleCmpz, not_nonZero_eq_decide]

theorem decode_cmpz (arg : Word) :
    decode 0x60 arg = .ok (.cmpz .direct arg) ∧ decode 0x63 arg = .ok (.cmpz .immediate arg) ∧
      decode 0x65 arg = .ok (.cmpz .indirect arg) ∧ decode 0x66 arg = .ok (.cmpz .mode3 arg) :=
  ⟨decode_of_pack_eq (.cmpz .direct arg) (by decide : pack 0xC .direct = 0x60),
    decode_of_pack_eq (.cmpz .immediate arg) (by decide : pack 0xC .immediate = 0x63),
    decode_of_pack_eq (.cmpz .indirect arg) (by decide : pack 0xC .indirect = 0x65),
    decode_of_pack_eq (.cmpz .mode3 arg) (by decide : pack 0xC .mode3 = 0x66)⟩

/-- Settles O28: as O27, with the zero test. -/
theorem cmpzTestsCellZero : Obligations.CmpzTestsCellZero :=
  fun arg => ⟨decode_cmpz arg, exec_of_handle_compareCell handle_cmpz arg⟩

end Sys2Proof.Machine

/-! Proofs about the conditions of spec/60_exceptions.md: which instructions raise IllegalAddressingMode (R173),
DivideByZero (R174) and OutOfRangeAddress (R176), and what each of the three names. `handle_raises` says what a handler
can raise at all; the lemmas here say when it does and, for a range fault, which index it names. -/

namespace Sys2Proof

/-! ### Legality depends on the opcode and the mode alone -/

/-- A handler that takes every mode refuses none of them. -/
theorem Mode.mem_all (m : Mode) : m ∈ [Mode.direct, .immediate, .indirect, .mode3] := by
  cases m <;> decide

/-- The row of the legality matrix at an opcode (30_encoding.md R67), read off the instruction the opcode map gives. -/
def legalModesAt (oc : BitVec 4) : List Mode :=
  match Instr.ofFields (oc.setWidth 5) .direct 0 with
  | .ok i    => i.legalModes
  | .error _ => []

theorem Instr.legalModes_eq_legalModesAt (i : Instr) : i.legalModes = legalModesAt i.opcode := by
  cases i <;> rfl

/-- The pairs of opcode and mode listed in 60_exceptions.md R173. -/
def illegalPairs : List (BitVec 4 × Mode) :=
  [(0, .immediate), (0, .indirect), (0, .mode3), (1, .mode3), (2, .immediate), (2, .mode3), (5, .mode3),
   (6, .mode3), (7, .mode3), (8, .mode3), (9, .indirect), (9, .mode3), (10, .immediate), (10, .indirect),
   (10, .mode3), (11, .immediate), (11, .indirect), (11, .mode3), (12, .immediate), (12, .indirect),
   (12, .mode3), (13, .indirect), (13, .mode3), (15, .immediate), (15, .indirect), (15, .mode3)]

/-- The listed pairs are the complement of the legality matrix, but for the row 0xE: the 64 pairs one by one. -/
theorem mem_illegalPairs_iff_legalModesAt (oc : BitVec 4) (m : Mode) :
    (oc, m) ∈ illegalPairs ↔ oc ≠ 0xE ∧ m ∉ legalModesAt oc := by
  cases m <;> revert oc <;> decide

theorem Instr.mem_illegalPairs_iff (i : Instr) :
    (i.opcode, i.mode) ∈ illegalPairs ↔ i.opcode ≠ 0xE ∧ i.mode ∉ i.legalModes := by
  rw [mem_illegalPairs_iff_legalModesAt, i.legalModes_eq_legalModesAt]

theorem Instr.wellFormed_eq_false_iff (i : Instr) : i.wellFormed = false ↔ i.mode ∉ i.legalModes :=
  decide_eq_false_iff_not

/-- The row 0xE of the legality matrix is empty. -/
theorem Instr.not_mem_legalModes_of_opcode {i : Instr} (h : i.opcode = 0xE) : i.mode ∉ i.legalModes := by
  rw [i.legalModes_eq_legalModesAt, h]
  exact List.not_mem_nil

namespace Machine

/-! ### IllegalAddressingMode -/

section
variable {i : Instr} {s : State} {oc : BitVec 4} {m : Mode}

theorem bind_of_error {α β : Type} {x : Except Condition α} {f : α → Except Condition β} {c : Condition}
    (h : x = .error c) : x >>= f = .error c := by
  rw [h, bind_error]

/-- A handler makes its mode check before anything else (40_step_and_system.md R90). -/
theorem handle_of_illegalMode (hoc : i.opcode ≠ 0xE) (hm : i.mode ∉ i.legalModes) :
    handle i s = .error (.illegalAddressingMode i.opcode i.mode) := by
  cases i with
  | nop m arg | logNot m arg | halt m arg | cmpl m arg | cmpz m arg => exact bind_of_error (requireMode_illegal hm)
  | lod m arg | add m arg | sub m arg | mul m arg | div m arg | logAnd m arg =>
    exact bind_of_error (requireForm_illegal hm)
  | forLoop m arg => exact bind_of_error (bind_of_error (requireForm_illegal hm))
  | sto m arg =>
    cases m with
    | direct | indirect => exact absurd (by simp [Instr.mode, Instr.legalModes]) hm
    | immediate | mode3 => rfl
  | jump m arg | jmpz m arg => exact absurd m.mem_all hm
  | unused0E m arg => exact absurd rfl hoc

/-- Opcode 0xE is refused for want of a handler, whatever its mode (40_step_and_system.md R100). -/
theorem handle_of_opcode_unused (h : i.opcode = 0xE) : handle i s = .error (.undefinedOpcode 0xE) := by
  cases i with
  | unused0E m arg => rfl
  | _ => cases h

theorem handle_eq_illegalMode_iff :
    handle i s = .error (.illegalAddressingMode oc m) ↔
      (i.opcode ≠ 0xE ∧ i.mode ∉ i.legalModes) ∧ oc = i.opcode ∧ m = i.mode := by
  constructor
  · intro h
    have hoc : i.opcode ≠ 0xE := by
      intro hE
      rw [handle_of_opcode_unused hE] at h
      cases h
    cases handle_raises h with
    | illegalMode hm => exact ⟨⟨hoc, hm⟩, rfl, rfl⟩
  · rintro ⟨⟨hoc, hm⟩, rfl, rfl⟩
    exact handle_of_illegalMode hoc hm

end

/-- Settles O35: the list is the complement of the legality matrix less the row 0xE, and a handler raises the condition
exactly outside the matrix. -/
theorem illegalModesRaise : Obligations.IllegalModesRaise := by
  refine ⟨rfl, fun i s hi => ?_, fun i s oc m h => ?_, fun i => ?_⟩
  · obtain ⟨hoc, hm⟩ := i.mem_illegalPairs_iff.1 hi
    exact exec_of_handle_error (handle_of_illegalMode hoc hm)
  · obtain ⟨hi, rfl, rfl⟩ := handle_eq_illegalMode_iff.1 h
    exact ⟨i.mem_illegalPairs_iff.2 hi, rfl, rfl⟩
  · refine i.wellFormed_eq_false_iff.trans ⟨fun hm => ?_, ?_⟩
    · by_cases hoc : i.opcode = 0xE
      · exact .inr hoc
      · exact .inl (i.mem_illegalPairs_iff.2 ⟨hoc, hm⟩)
    · rintro (hi | hoc)
      · exact (i.mem_illegalPairs_iff.1 hi).2
      · exact Instr.not_mem_legalModes_of_opcode hoc

/-! ### DivideByZero -/

section
variable {f : Form} {m : Mode} {a v arg : Word} {s : State}

/-- DIV in an operand form is `value` and then the test of the divisor. -/
theorem handle_div_form (f : Form) (arg : Word) (s : State) :
    handle (.div f.mode arg) s = value f arg s >>= fun v =>
      if v = 0 then .error (.divideByZero f.mode)
      else pure (s.setAcc (wrap (tdiv s.acc.toInt v.toInt))).advance := by
  rw [handle, handleDiv, requireForm_legal f.mem_all, bind_ok]

theorem handle_div_of_operandIs_zero (h : OperandIs f arg s 0) :
    handle (.div f.mode arg) s = .error (.divideByZero f.mode) := by
  rw [handle_div_form, value_of_operandIs h, bind_ok, if_pos rfl]

theorem handle_div_of_operandIs_ne_zero (h : OperandIs f arg s v) (hv : v ≠ 0) :
    handle (.div f.mode arg) s = .ok (s.setAcc (wrap (tdiv s.acc.toInt v.toInt))).advance := by
  rw [handle_div_form, value_of_operandIs h, bind_ok, if_neg hv, pure_ok]

theorem handle_div_of_operandOutOfRange (h : OperandOutOfRange f arg s a) :
    handle (.div f.mode arg) s = .error (.outOfRangeAddress a) := by
  rw [handle_div_form, value_of_operandOutOfRange h, bind_error]

theorem handle_div_mode3 (arg : Word) (s : State) :
    handle (.div .mode3 arg) s = .error (.illegalAddressingMode 0x8 .mode3) := by
  rw [handle, handleDiv, requireForm_illegal (by decide), bind_error]

theorem mode_eq_mode3_or_form (m : Mode) : m = .mode3 ∨ ∃ f : Form, f.mode = m := by
  cases m with
  | direct => exact .inr ⟨.direct, rfl⟩
  | immediate => exact .inr ⟨.immediate, rfl⟩
  | indirect => exact .inr ⟨.indirect, rfl⟩
  | mode3 => exact .inl rfl

theorem operandIs_zero_of_handle_div {n : Mode} (h : handle (.div f.mode arg) s = .error (.divideByZero n)) :
    OperandIs f arg s 0 := by
  rcases operand_cases f arg s with ⟨v, hv⟩ | ⟨a, ha⟩
  · by_cases hz : v = 0
    · exact hz ▸ hv
    · rw [handle_div_of_operandIs_ne_zero hv hz] at h
      cases h
  · rw [handle_div_of_operandOutOfRange ha] at h
    cases h

theorem handle_eq_divideByZero_iff {i : Instr} :
    handle i s = .error (.divideByZero m) ↔
      ∃ (f : Form) (arg : Word), i = .div m arg ∧ f.mode = m ∧ OperandIs f arg s 0 := by
  constructor
  · intro h
    cases handle_raises h with
    | zeroDivisor _ arg hi =>
      subst hi
      rcases mode_eq_mode3_or_form m with rfl | ⟨f, rfl⟩
      · rw [handle_div_mode3] at h
        cases h
      · exact ⟨f, arg, rfl, rfl, operandIs_zero_of_handle_div h⟩
  · rintro ⟨f, arg, rfl, rfl, hz⟩
    exact handle_div_of_operandIs_zero hz

end

/-- Settles O36: the condition is raised where the operand is 0 and nowhere else, and what is then left of the state is
what the fault action leaves. -/
theorem divideByZeroOnlyByDiv : Obligations.DivideByZeroOnlyByDiv := by
  refine ⟨fun i s m => handle_eq_divideByZero_iff, fun f arg s hz => ?_⟩
  exact ⟨s.takeFault (.divideByZero f.mode), exec_of_handle_error (handle_div_of_operandIs_zero hz),
    State.takeFault_running s _, State.takeFault_acc s _, State.takeFault_faultCause s _⟩

/-! ### OutOfRangeAddress -/

/-- The index `a` is out of range, and it is that of an instruction's first data access, `arg`, or of its second,
`Mem[arg]` (60_exceptions.md R176). -/
def OffendingIndex (arg : Word) (s : State) (a : Word) : Prop :=
  ¬ ValidAddress a ∧ (a = arg ∨ (ValidAddress arg ∧ a = s.mem.read arg.toNat))

section
variable {i : Instr} {s : State} {m : Mode} {oc : BitVec 4} {a b v arg : Word}

theorem memRead_error_iff : memRead b s = .error (.outOfRangeAddress a) ↔ ¬ ValidAddress b ∧ a = b := by
  rcases memRead_cases b s with ⟨hv, e⟩ | ⟨hv, e⟩ <;> simp [e, hv, eq_comm]

theorem memWrite_error_iff : memWrite b v s = .error (.outOfRangeAddress a) ↔ ¬ ValidAddress b ∧ a = b := by
  rcases memWrite_cases b v s with ⟨hv, e⟩ | ⟨hv, e⟩ <;> simp [e, hv, eq_comm]

theorem codeRead_error_iff : codeRead b s = .error (.outOfRangeAddress a) ↔ ¬ ValidAddress b ∧ a = b := by
  rcases codeRead_cases b s with ⟨hv, e⟩ | ⟨hv, e⟩ <;> simp [e, hv, eq_comm]

theorem requireMode_ne_outOfRange {legal : List Mode} : requireMode oc legal m ≠ .error (.outOfRangeAddress a) := by
  unfold requireMode
  split <;> nofun

theorem requireForm_ne_outOfRange {legal : List Form} : requireForm oc legal m ≠ .error (.outOfRangeAddress a) := by
  unfold requireForm
  split <;> nofun

theorem memRead_offendingIndex (h : memRead arg s = .error (.outOfRangeAddress a)) : OffendingIndex arg s a := by
  obtain ⟨hv, rfl⟩ := memRead_error_iff.1 h
  exact ⟨hv, .inl rfl⟩

theorem value_offendingIndex {f : Form} (h : value f arg s = .error (.outOfRangeAddress a)) :
    OffendingIndex arg s a := by
  obtain ⟨_, hout, ⟨⟩⟩ := value_eq_error_iff.1 h
  cases f with
  | direct =>
    obtain ⟨hv, rfl⟩ := hout
    exact ⟨hv, .inl rfl⟩
  | immediate => exact hout.elim
  | indirect =>
    rcases hout with ⟨hv, rfl⟩ | ⟨harg, hv, rfl⟩
    · exact ⟨hv, .inl rfl⟩
    · exact ⟨hv, .inr ⟨harg, rfl⟩⟩

/-- A handler that checks its form, resolves its operand and then makes no access faults where the operand does. -/
theorem operand_offendingIndex {legal : List Form} {k : Word → Except Condition State}
    (h : (requireForm oc legal m >>= fun f => value f arg s >>= k) = .error (.outOfRangeAddress a))
    (hk : ∀ v, k v ≠ .error (.outOfRangeAddress a)) : OffendingIndex arg s a := by
  rcases bind_eq_error h with h | ⟨_, _, h⟩
  · exact absurd h requireForm_ne_outOfRange
  · rcases bind_eq_error h with h | ⟨v, _, h⟩
    · exact value_offendingIndex h
    · exact absurd h (hk v)

/-- The cell STO writes is `arg` or, after a first access in range, `Mem[arg]` (41_load_store.md R107). -/
theorem storeTarget_ok (h : storeTarget m arg s = .ok b) :
    b = arg ∨ (ValidAddress arg ∧ b = s.mem.read arg.toNat) := by
  cases m with
  | direct =>
    cases h
    exact .inl rfl
  | indirect =>
    rcases memRead_cases arg s with ⟨harg, e⟩ | ⟨_, e⟩ <;> cases e.symm.trans h
    exact .inr ⟨harg, rfl⟩
  | immediate | mode3 => cases h

theorem storeTarget_offendingIndex (h : storeTarget m arg s = .error (.outOfRangeAddress a)) :
    OffendingIndex arg s a := by
  cases m with
  | indirect => exact memRead_offendingIndex h
  | direct | immediate | mode3 => cases h

/-- A jump's target is not range-checked; only the read of its pointer can fault (42_jumps.md R115). -/
theorem jumpTarget_offendingIndex (h : jumpTarget m arg s = .error (.outOfRangeAddress a)) :
    OffendingIndex arg s a := by
  cases m with
  | direct | immediate => cases h
  | indirect =>
    rcases bind_eq_error h with h | ⟨_, _, h⟩
    · exact memRead_offendingIndex h
    · cases h
  | mode3 => exact memRead_offendingIndex h

theorem handle_offendingIndex (h : handle i s = .error (.outOfRangeAddress a)) : OffendingIndex i.arg s a := by
  cases i with
  | nop m arg | logNot m arg | halt m arg =>
    rcases bind_eq_error h with h | ⟨_, _, h⟩
    · exact absurd h requireMode_ne_outOfRange
    · cases h
  | cmpl m arg | cmpz m arg =>
    rcases bind_eq_error h with h | ⟨_, _, h⟩
    · exact absurd h requireMode_ne_outOfRange
    · rcases bind_eq_error h with h | ⟨_, _, h⟩
      · exact memRead_offendingIndex h
      · cases h
  | lod m arg | add m arg | sub m arg | mul m arg | logAnd m arg => exact operand_offendingIndex h nofun
  | div m arg => exact operand_offendingIndex h fun v => by split <;> nofun
  | sto m arg =>
    rcases bind_eq_error h with h | ⟨b, hb, h⟩
    · exact storeTarget_offendingIndex h
    · rcases bind_eq_error h with h | ⟨_, _, h⟩
      · obtain ⟨hv, rfl⟩ := memWrite_error_iff.1 h
        exact ⟨hv, storeTarget_ok hb⟩
      · cases h
  | jump m arg =>
    rcases bind_eq_error h with h | ⟨_, _, h⟩
    · exact jumpTarget_offendingIndex h
    · cases h
  | jmpz m arg =>
    simp only [handle, handleJmpz] at h
    split at h
    · split at h <;> cases h
      exact jumpTarget_offendingIndex ‹_›
    · cases h
  | forLoop m arg =>
    rcases bind_eq_error h with h | ⟨_, _, h⟩
    · rcases bind_eq_error h with h | ⟨_, _, h⟩
      · exact absurd h requireForm_ne_outOfRange
      · exact value_offendingIndex h
    · split at h <;> cases h
  | unused0E m arg => cases h

/-- The decoder refuses a word for its parity or its opcode, so the fetch's one range fault is that of `pc`. -/
theorem fetchInstr_outOfRange (h : fetchInstr s = .error (.outOfRangeAddress a)) :
    ¬ ValidAddress s.pc ∧ a = s.pc := by
  rcases bind_eq_error h with h | ⟨_, _, h⟩
  · exact codeRead_error_iff.1 h
  · split at h
    · cases h
    · next r _ => cases r <;> cases h

/-- A condition comes from the fetch stage, or from the handler of the instruction fetched. -/
theorem raisedBy_eq_some {c : Condition} (h : raisedBy s = some c) :
    fetchInstr s = .error c ∨ ∃ i, fetchInstr s = .ok i ∧ handle i s = .error c := by
  unfold raisedBy at h
  split at h
  · split at h
    · next hf =>
      cases h
      exact .inl hf
    · next i hf =>
      split at h <;> cases h
      exact .inr ⟨i, hf, ‹_›⟩
  · cases h

end

/-- Settles O37: a range fault comes from the fetch, which names `pc`, or from the handler, which names an
`OffendingIndex` of the instruction's `arg`. -/
theorem outOfRangeNamesOffendingIndex : Obligations.OutOfRangeNamesOffendingIndex := by
  refine ⟨fun s a h => ?_, fun s hrun hpc => ?_, fun s a v => ?_⟩
  · rcases raisedBy_eq_some h with hf | ⟨i, hf, hh⟩
    · obtain ⟨hpc, rfl⟩ := fetchInstr_outOfRange hf
      exact ⟨hpc, .inl rfl⟩
    · obtain ⟨ha, hindex⟩ := handle_offendingIndex hh
      obtain ⟨hpc, _⟩ := fetchInstr_ok hf
      exact ⟨ha, .inr ⟨i, hpc, hf, hindex⟩⟩
  · exact raisedBy_of_fetchInstr_error hrun (fetchInstr_invalid hpc)
  · exact ⟨codeRead_error_iff.trans (and_iff_left rfl), memRead_error_iff.trans (and_iff_left rfl),
      memWrite_error_iff.trans (and_iff_left rfl)⟩

end Machine

end Sys2Proof

/-! Proofs about the codec of spec/30_encoding.md as a whole: decoding inverts encoding in both directions, for
instructions (R66, R71), for bytes (R63, R64) and for the lines of the assembler (R76 to R80). -/

namespace Sys2Proof

/-! ### The fields of a byte and of an instruction determine each other -/

/-- `unpack` loses no bit of the opcode: five bits hold `op_byte div 8` (30_encoding.md R64). -/
theorem unpack_opcode_toNat (op : Byte) : (unpack op).1.toNat = op.toNat / 8 := by
  have hop : op.toNat < 256 := op.isLt
  rw [unpack, BitVec.toNat_ofNat, Nat.mod_eq_of_lt (by omega)]

/-- An opcode below 16 is a byte with bit 7 clear (30_encoding.md R61). -/
theorem bit7_clear_of_opcode_lt {op : Byte} (h : (unpack op).1.toNat < 16) : op.getLsbD 7 = false := by
  rw [unpack_opcode_toNat] at h
  exact Nat.testBit_lt_two_pow (by omega : op.toNat < 2 ^ 7)

/-- A byte of even parity with bit 7 clear is the packing of its fields: the 256 bytes one by one. -/
theorem pack_unpack {op : Byte} (hparity : checkParity op = true) (hbit7 : op.getLsbD 7 = false) :
    pack ((unpack op).1.setWidth 4) (unpack op).2 = op := by
  revert op
  decide

/-- The opcode map answers an instruction only for that instruction's own fields (30_encoding.md R66). -/
theorem ofFields_ok {oc : BitVec 5} {m : Mode} {arg : Word} {i : Instr} (h : Instr.ofFields oc m arg = .ok i) :
    oc = i.opcode.setWidth 5 ∧ m = i.mode ∧ arg = i.arg := by
  unfold Instr.ofFields at h
  split at h <;> cases h <;> exact ⟨BitVec.eq_of_toNat_eq ‹_›, rfl, rfl⟩

/-- Widening an opcode of the table for `unpack` changes nothing: its value stays below 16, and narrowing undoes it. -/
theorem opcode_setWidth (oc : BitVec 4) : (oc.setWidth 5).toNat < 16 ∧ (oc.setWidth 5).setWidth 4 = oc := by
  revert oc
  decide

/-! ### Decode and encode -/

theorem decode_encode (i : Instr) : decode (encode i).1 (encode i).2 = .ok i :=
  decode_of_pack_eq i rfl

theorem encode_of_decode {op : Byte} {arg : Word} {i : Instr} (h : decode op arg = .ok i) : encode i = (op, arg) := by
  unfold decode at h
  split at h
  · next hparity =>
    obtain ⟨hopcode, hmode, rfl⟩ := ofFields_ok h
    obtain ⟨hlt, hnarrow⟩ := opcode_setWidth i.opcode
    have hpack := pack_unpack hparity (bit7_clear_of_opcode_lt (hopcode ▸ hlt))
    rw [hopcode, hmode, hnarrow] at hpack
    rw [encode, hpack]
  · cases h

/-- Settles O2: one direction is the decoder on a packed word, the other that an accepted byte is the packing of its
own fields. -/
theorem decodeEncodeAgree : Obligations.DecodeEncodeAgree :=
  ⟨decode_encode, fun _ _ _ => encode_of_decode⟩

/-- Settles O3: the round trip of the byte, from either end. -/
theorem packUnpackRoundTrip : Obligations.PackUnpackRoundTrip :=
  ⟨fun oc m => ⟨unpack_pack oc m, (Laws.pack_even oc m).1⟩, fun _ => pack_unpack⟩

/-- Settles O1: seven of the words are packed bytes, and four are refused by evaluation of the parity check and of
the opcode map. -/
theorem writtenWordsDecode : Obligations.WrittenWordsDecode :=
  ⟨decode_of_pack_eq (.lod .immediate 5) (by decide), decode_of_pack_eq (.add .direct 0) (by decide),
    decode_of_pack_eq (.halt .direct 0) (by decide), decode_of_pack_eq (.sto .indirect 1) (by decide),
    decode_of_pack_eq (.jump .mode3 1) (by decide), decode_of_pack_eq (.forLoop .immediate 0x2003) (by decide),
    decode_of_pack_eq (.unused0E .direct 0) (by decide), (decode_eq_corrupted_iff _ _).2 (by decide),
    (decode_eq_corrupted_iff _ _).2 (by decide), by decide, by decide⟩

namespace Machine

/-! ### The assembler's lines -/

/-- An accepted line is the word of its mnemonic with some mode and argument (30_encoding.md R80). -/
theorem assembleLine_some {n : Mnemonic} {a : Option (Marker × Word)} {w : Byte × Word}
    (h : assembleLine n a = some w) : ∃ m arg, w = encode (n.instr m arg) := by
  unfold assembleLine at h
  split at h <;> cases h
  · exact ⟨_, _, rfl⟩
  · exact ⟨_, _, rfl⟩

theorem assembleLine_argument {n : Mnemonic} (h : n.noArgument = false) (k : Marker) (a : Word) :
    assembleLine n (some (k, a)) = some (encode (n.instr k.mode a)) := by
  simp only [assembleLine, h]

theorem assembleLine_noArgument {n : Mnemonic} (h : n.noArgument = true) :
    assembleLine n none = some (encode (n.instr .direct 0)) := by
  simp only [assembleLine, h]

/-- Settles O5: an accepted line is an encoded instruction, which decodes to it. -/
theorem assembledLineDecodes : Obligations.AssembledLineDecodes := by
  refine ⟨fun n k a h => ?_, fun n h => ?_, fun n k a h => ?_, fun n h => ?_⟩
  · exact ⟨_, assembleLine_argument h k a, decode_encode _⟩
  · exact ⟨_, assembleLine_noArgument h, decode_encode _⟩
  · simp only [assembleLine, h]
  · simp only [assembleLine, h]

end Machine

end Sys2Proof

/-! Proofs about what a cycle depends on (spec/10_state.md, sections 2 to 4): two runs of one instruction from states
with the same `acc`, `pc` and Memory raise the same condition or make the same update, whatever the other fields hold. -/

namespace Sys2Proof.Machine

/-! ### Two runs of one instruction -/

/-- What a handler that raises no condition does, as data: one constructor per form of `Effect`. -/
inductive Update where
  | acc (v : Word)
  | store (a : Word)
  | next
  | goTo (p : Word)
  | loop (outer inner : Nat)
  | spin
  | halt

/-- The update made on a state; the stored word is the state's own `acc`. -/
def Update.apply : Update → State → State
  | .acc v,            s => (s.setAcc v).advance
  | .store a,          s => (s.storeWord a s.acc).advance
  | .next,             s => s.advance
  | .goTo p,           s => s.setPc p
  | .loop outer inner, s => s.startLoop outer inner
  | .spin,             s => s
  | .halt,             s => s.haltEngine

/-- The counts of the loop an update starts, if it starts one. -/
def Update.loopCounts : Update → Option (Nat × Nat)
  | .loop outer inner                                     => some (outer, inner)
  | .acc _ | .store _ | .next | .goTo _ | .spin | .halt => none

/-- The two states agree in every field an instruction reads. -/
structure SameInputs (s u : State) : Prop where
  acc : s.acc = u.acc
  pc  : s.pc = u.pc
  mem : s.mem = u.mem

/-- Two answers of a handler of `i`, from `s` and from `u`, are the same condition or the same update. -/
def AnswerAlike (i : Instr) (s u : State) (x y : Except Condition State) : Prop :=
  (∃ c, x = .error c ∧ y = .error c) ∨
    ∃ e : Update, e.loopCounts = loopCounts i s ∧ x = .ok (e.apply s) ∧ y = .ok (e.apply u)

section
variable {i : Instr} {s u : State}

theorem AnswerAlike.error (c : Condition) : AnswerAlike i s u (.error c) (.error c) := .inl ⟨c, rfl, rfl⟩

theorem AnswerAlike.ok (e : Update) (h : e.loopCounts = loopCounts i s) :
    AnswerAlike i s u (.ok (e.apply s)) (.ok (e.apply u)) := .inr ⟨e, h, rfl, rfl⟩

/-- The first parts of two handlers answer the same; what is left is the rest, after each answer. -/
theorem AnswerAlike.bind {α : Type} {x y : Except Condition α} {k l : α → Except Condition State} (hxy : x = y)
    (hk : ∀ a, x = .ok a → AnswerAlike i s u (k a) (l a)) : AnswerAlike i s u (x >>= k) (y >>= l) := by
  subst hxy
  cases x with
  | error c => exact .error c
  | ok a => exact hk a rfl

theorem SameInputs.memRead_eq (h : SameInputs s u) (a : Word) : memRead a s = memRead a u := by
  rw [memRead, memRead, h.mem]

theorem SameInputs.value_eq (h : SameInputs s u) (f : Form) (arg : Word) : value f arg s = value f arg u := by
  cases f with
  | direct => exact h.memRead_eq arg
  | immediate => rfl
  | indirect => simp only [value, h.memRead_eq]

theorem SameInputs.storeTarget_eq (h : SameInputs s u) (m : Mode) (arg : Word) :
    storeTarget m arg s = storeTarget m arg u := by
  cases m with
  | indirect => exact h.memRead_eq arg
  | direct | immediate | mode3 => rfl

theorem SameInputs.jumpTarget_eq (h : SameInputs s u) (m : Mode) (arg : Word) :
    jumpTarget m arg s = jumpTarget m arg u := by
  cases m <;> simp only [jumpTarget, h.memRead_eq, h.pc]

theorem SameInputs.countWord_eq (h : SameInputs s u) (m : Mode) (arg : Word) :
    countWord m arg s = countWord m arg u := by
  simp only [countWord, h.value_eq]

theorem SameInputs.loopCounts_eq (h : SameInputs s u) (i : Instr) : loopCounts i s = loopCounts i u := by
  cases i with
  | forLoop m arg => simp only [loopCounts, h.countWord_eq]
  | _ => rfl

/-- The handler of an instruction reads `acc`, `pc` and Memory alone. -/
theorem SameInputs.handle_alike (h : SameInputs s u) (i : Instr) : AnswerAlike i s u (handle i s) (handle i u) := by
  cases i with
  | nop m arg => exact .bind rfl fun _ _ => .ok .next rfl
  | lod m arg => exact .bind rfl fun f _ => .bind (h.value_eq f arg) fun v _ => .ok (.acc v) rfl
  | sto m arg =>
    refine .bind (h.storeTarget_eq m arg) fun a _ => ?_
    by_cases ha : ValidAddress a
    · rw [memWrite_valid _ ha, memWrite_valid _ ha]
      exact .ok (.store a) rfl
    · rw [memWrite_invalid _ ha, memWrite_invalid _ ha]
      exact .error _
  | jump m arg => exact .bind (h.jumpTarget_eq m arg) fun p _ => .ok (.goTo p) rfl
  | jmpz m arg =>
    simp only [handle, handleJmpz, ← h.acc, ← h.jumpTarget_eq]
    split
    · split
      · next p _ => exact .ok (.goTo p) rfl
      · next c _ => exact .error c
    · exact .ok .next rfl
  | add m arg | sub m arg | mul m arg =>
    simp only [handle, handleAdd, handleSub, handleMul, arithmetic, ← h.acc]
    exact .bind rfl fun f _ => .bind (h.value_eq f arg) fun _ _ => .ok (.acc _) rfl
  | div m arg =>
    simp only [handle, handleDiv, ← h.acc]
    refine .bind rfl fun f _ => .bind (h.value_eq f arg) fun v _ => ?_
    split
    · exact .error _
    · exact .ok (.acc _) rfl
  | logAnd m arg =>
    simp only [handle, handleAnd, ← h.acc]
    exact .bind rfl fun f _ => .bind (h.value_eq f arg) fun _ _ => .ok (.acc _) rfl
  | logNot m arg =>
    simp only [handle, handleNot, ← h.acc]
    exact .bind rfl fun _ _ => .ok (.acc _) rfl
  | cmpl m arg | cmpz m arg => exact .bind rfl fun _ _ => .bind (h.memRead_eq arg) fun _ _ => .ok (.acc _) rfl
  | forLoop m arg =>
    refine .bind (h.countWord_eq m arg) fun v hv => ?_
    split
    · next outer inner hc => exact .ok (.loop outer inner) (by simp only [loopCounts, hv, hc, Update.loopCounts])
    · next hc => exact .ok .spin (by simp only [loopCounts, hv, hc, Update.loopCounts])
  | unused0E m arg => exact .error _
  | halt m arg => exact .bind rfl fun _ _ => .ok .halt rfl

end

end Sys2Proof.Machine

/-! Proofs about the end of a top-level Step (spec/40_step_and_system.md R94, 45_for.md R160): a Step is a number of
cycles, counted down to the first state that is halted or has no FOR in progress. -/

namespace Sys2Proof.Machine

/-! ### The cycle as a function -/

/-- Every cycle answers a next state, so `step` is a function of states (notes/assumptions/5.md). -/
theorem step_next (s : State) : ∃ t, step s = .next t := by
  rcases step_cases s with ⟨_, h⟩ | ⟨_, c, _, h⟩ | ⟨_, _, i, t, _, _, h⟩ <;> exact ⟨_, h⟩

/-- The next state of a cycle. -/
def cycle (s : State) : State :=
  match step s with
  | .next t                => t
  | .fault _ | .refused _ => s

theorem cycle_of_step {s t : State} (h : step s = .next t) : cycle s = t := by rw [cycle, h]

theorem step_eq_cycle (s : State) : step s = .next (cycle s) := by
  obtain ⟨t, h⟩ := step_next s
  rw [h, cycle_of_step h]

/-- Settles O14: a cycle by `step_cases`, an instruction by `exec_cases`. -/
theorem everyCycleAnswersNext : Obligations.EveryCycleAnswersNext := by
  refine ⟨step_next, fun i s => ?_⟩
  rcases exec_cases i s with ⟨t, _, h⟩ | ⟨c, _, h⟩ <;> exact ⟨_, h⟩

theorem step_of_halted {s : State} (h : s.running = false) : step s = .next s := by
  rw [step, h]
  rfl

theorem raisedBy_of_halted {s : State} (h : s.running = false) : raisedBy s = none := by
  rw [raisedBy, h]
  rfl

/-- A cycle that fetches an instruction whose handler raises no condition. -/
theorem step_of_handle_ok {s t : State} {i : Instr} (hrun : s.running = true) (hf : fetchInstr s = .ok i)
    (hh : handle i s = .ok t) : step s = .next (finishCycle i s t) := by
  simp only [step, hrun, if_true, hf, exec_of_handle_ok hh]

theorem raisedBy_of_handle_ok {s t : State} {i : Instr} (hrun : s.running = true) (hf : fetchInstr s = .ok i)
    (hh : handle i s = .ok t) : raisedBy s = none := by
  simp only [raisedBy, hrun, if_true, hf, hh]

theorem raisedBy_of_handle_error {s : State} {i : Instr} {c : Condition} (hrun : s.running = true)
    (hf : fetchInstr s = .ok i) (hh : handle i s = .error c) : raisedBy s = some c := by
  simp only [raisedBy, hrun, if_true, hf, hh]

/-- A cycle that ends without a completed Step is one that starts a loop (45_for.md R158). -/
theorem finishCycle_of_loop {i : Instr} {s : State} {p : Nat × Nat} (t : State) (h : loopCounts i s = some p) :
    finishCycle i s t = t := by
  rw [finishCycle, h]
  rfl

theorem finishCycle_of_complete {i : Instr} {s : State} (t : State) (h : loopCounts i s = none) :
    finishCycle i s t = t.complete := by
  rw [finishCycle, h]
  rfl

/-! ### The cycles of a top-level Step -/

/-- A top-level Step is in progress and the engine runs, so the Step goes on (45_for.md R160). -/
def Busy (s : State) : Prop := s.running = true ∧ s.loopStack ≠ []

theorem busy_iff (s : State) : (s.running && !s.loopStack.isEmpty) = true ↔ Busy s := by
  simp [Busy]

theorem topStep_of_busy {s : State} (k : Nat) (h : Busy (cycle s)) : topStep (k + 1) s = topStep k (cycle s) := by
  simp only [topStep, step_eq_cycle, (busy_iff _).2 h, if_true]

theorem topStep_of_not_busy {s : State} (k : Nat) (h : ¬ Busy (cycle s)) :
    topStep (k + 1) s = some (cycle s, raisedBy s) := by
  simp only [topStep, step_eq_cycle]
  rw [if_neg (mt (busy_iff _).1 h)]

/-- From `s` the rest of a top-level Step takes `n` cycles and ends in `t`. -/
inductive EndsIn : Nat → State → State → Prop where
  | idle {s : State} (h : ¬ Busy s) : EndsIn 0 s s
  | cycle {n : Nat} {s t : State} (h : Busy s) (ht : EndsIn n (cycle s) t) : EndsIn (n + 1) s t

theorem EndsIn.of_topStep {k : Nat} {s t : State} {r : Option Condition} (h : topStep k s = some (t, r)) :
    ∃ n, EndsIn n (Machine.cycle s) t := by
  induction k generalizing s with
  | zero => cases h
  | succ k ih =>
    by_cases hb : Busy (Machine.cycle s)
    · rw [topStep_of_busy k hb] at h
      obtain ⟨n, hn⟩ := ih h
      exact ⟨n + 1, .cycle hb hn⟩
    · rw [topStep_of_not_busy k hb] at h
      cases h
      exact ⟨0, .idle hb⟩

theorem EndsIn.topStep {n : Nat} {c t : State} (h : EndsIn n c t) :
    ∀ s, Machine.cycle s = c → ∃ r, topStep (n + 1) s = some (t, r) := by
  induction h with
  | idle hb =>
    rintro s rfl
    exact ⟨_, topStep_of_not_busy 0 hb⟩
  | cycle hb _ ih =>
    rintro s rfl
    obtain ⟨r, hr⟩ := ih _ rfl
    exact ⟨r, (topStep_of_busy _ hb).trans hr⟩

theorem topStepsTo_iff (s t : State) : TopStepsTo s t ↔ ∃ n, EndsIn n (cycle s) t := by
  constructor
  · rintro ⟨k, r, h⟩
    exact EndsIn.of_topStep h
  · rintro ⟨n, h⟩
    obtain ⟨r, hr⟩ := h.topStep s rfl
    exact ⟨n + 1, r, hr⟩

/-- Settles O13: a halted engine's cycle gives the state back, and a halted state ends the Step. -/
theorem haltedEngineIgnoresStep : Obligations.HaltedEngineIgnoresStep := by
  intro s hs
  have hcycle : cycle s = s := cycle_of_step (step_of_halted hs)
  have hidle : ¬ Busy (cycle s) := by simp [hcycle, Busy, hs]
  refine ⟨step_of_halted hs, fun k => ?_⟩
  rw [topStep_of_not_busy k hidle, hcycle, raisedBy_of_halted hs]

/-- Settles O33: the cycle takes the fault action, which halts the engine, so the Step ends with it. -/
theorem faultAction : Obligations.FaultAction := by
  intro s c h
  have hstep := step_of_raisedBy h
  have hidle : ¬ Busy (cycle s) := by simp [cycle_of_step hstep, Busy]
  refine ⟨hstep, fun k => ⟨s.takeFault c, ?_, hstep⟩⟩
  rw [topStep_of_not_busy k hidle, cycle_of_step hstep, h]

/-- Settles O11: what `exec` answers is what the cycle finishes, and `finishCycle` credits the Step exactly where
`loopCounts` is none. -/
theorem stepRunsDecodedInstruction : Obligations.StepRunsDecodedInstruction := by
  intro s i hrun hpc hd
  have hf := fetchInstr_of_decode_ok hpc hd
  obtain ⟨t, ht⟩ := everyCycleAnswersNext.2 i s
  refine ⟨t, ht, ?_⟩
  simp only [step, hrun, if_true, hf, ht]
  cases hc : loopCounts i s with
  | none => rw [finishCycle_of_complete t hc, if_pos rfl]
  | some p => rw [finishCycle_of_loop t hc, if_neg nofun]

end Sys2Proof.Machine

/-! Proofs about the loop stack of spec/45_for.md section 2: `Complete()` takes one Step from the innermost FOR (R159),
and the cycles of the loop-stack machine run a top-level Step as the recursive definition does (R151, R162). The key
fact is that one frame of the stack and the recursion's rest of one FOR are the same computation: both are counted down
by `Frame.credit`, one nested Step at a time. -/

namespace Sys2Proof.Machine

/-! ### A frame, counted in nested Steps -/

/-- Nested Steps that a FOR has still to run: those of the passes after this one, and those of this one. -/
def Frame.stepsLeft (f : Frame) : Nat := (f.oLeft - 1) * f.inner + f.jLeft

/-- No count of the frame is exhausted. -/
structure Frame.Live (f : Frame) : Prop where
  jLeft : 1 ≤ f.jLeft
  inner : 1 ≤ f.inner
  oLeft : 1 ≤ f.oLeft

/-- The frame after one of its nested Steps, when it is not the last (45_for.md R159). -/
def Frame.credit (f : Frame) : Frame :=
  if 1 < f.jLeft then { f with jLeft := f.jLeft - 1 } else { f with jLeft := f.inner, oLeft := f.oLeft - 1 }

/-- Where the nested Step after the one that ended at `s` starts: at the body when a pass has ended. -/
def Frame.resume (f : Frame) (s : State) : State := { s with pc := if f.jLeft = 1 then f.bodyStart else s.pc }

section
variable {f : Frame}

theorem Frame.ok.live (h : Frame.ok f) : f.Live := by
  obtain ⟨_, hj, hji, _, ho, _⟩ := h
  exact ⟨hj, by omega, ho⟩

theorem Frame.Live.one_le_stepsLeft (h : f.Live) : 1 ≤ f.stepsLeft :=
  Nat.le_trans h.jLeft (Nat.le_add_left _ _)

/-- More than one Step is left exactly when the pass, or a later one, has another. -/
theorem Frame.Live.one_lt_stepsLeft_iff (h : f.Live) : 1 < f.stepsLeft ↔ 1 < f.jLeft ∨ 1 < f.oLeft := by
  obtain ⟨hj, hi, ho⟩ := h
  have hzero : (f.oLeft - 1) * f.inner = 0 ↔ f.oLeft ≤ 1 := by
    rw [Nat.mul_eq_zero]
    omega
  unfold Frame.stepsLeft
  omega

theorem Frame.Live.stepsLeft_eq_one_iff (h : f.Live) : f.stepsLeft = 1 ↔ f.jLeft = 1 ∧ f.oLeft = 1 := by
  have hmore := h.one_lt_stepsLeft_iff
  have hone := h.one_le_stepsLeft
  have hj := h.jLeft
  have ho := h.oLeft
  omega

theorem Frame.credit_bodyStart (f : Frame) : f.credit.bodyStart = f.bodyStart := by
  unfold Frame.credit
  split <;> rfl

theorem Frame.credit_inner (f : Frame) : f.credit.inner = f.inner := by
  unfold Frame.credit
  split <;> rfl

/-- A live frame either has another Step in its pass, or ends the pass with another one to come, or ends. -/
theorem Frame.Live.cases (h : f.Live) :
    (1 < f.jLeft ∧ f.credit = { f with jLeft := f.jLeft - 1 }) ∨
    (f.jLeft = 1 ∧ 1 < f.oLeft ∧ f.credit = { f with jLeft := f.inner, oLeft := f.oLeft - 1 }) ∨
    (f.jLeft = 1 ∧ f.oLeft = 1) := by
  have hj := h.jLeft
  have ho := h.oLeft
  by_cases hmore : 1 < f.jLeft
  · exact .inl ⟨hmore, if_pos hmore⟩
  · by_cases hpass : 1 < f.oLeft
    · exact .inr (.inl ⟨by omega, hpass, if_neg hmore⟩)
    · exact .inr (.inr ⟨by omega, by omega⟩)

theorem Frame.Live.credit (h : f.Live) (hmore : 1 < f.stepsLeft) : f.credit.Live := by
  obtain ⟨hj, hi, ho⟩ := h
  rcases Frame.Live.cases ⟨hj, hi, ho⟩ with ⟨hlt, e⟩ | ⟨_, hlt, e⟩ | ⟨hj1, ho1⟩
  · rw [e]
    exact ⟨by simp only; omega, hi, ho⟩
  · rw [e]
    exact ⟨hi, hi, by simp only; omega⟩
  · have := (Frame.Live.stepsLeft_eq_one_iff ⟨hj, hi, ho⟩).2 ⟨hj1, ho1⟩
    omega

theorem Frame.Live.stepsLeft_credit (h : f.Live) (hmore : 1 < f.stepsLeft) :
    f.credit.stepsLeft + 1 = f.stepsLeft := by
  rcases h.cases with ⟨hlt, e⟩ | ⟨hj, hlt, e⟩ | hlast
  · rw [e]
    simp only [Frame.stepsLeft]
    omega
  · have hpass : (f.oLeft - 1) * f.inner = (f.oLeft - 1 - 1) * f.inner + f.inner := by
      rw [← Nat.succ_mul]
      congr 1
      omega
    rw [e]
    simp only [Frame.stepsLeft, hj]
    omega
  · have := h.stepsLeft_eq_one_iff.2 hlast
    omega

theorem Frame.ok.credit (h : Frame.ok f) (hmore : 1 < f.stepsLeft) : Frame.ok f.credit := by
  have hlive := h.live.credit hmore
  obtain ⟨hbody, hj, hji, hi, ho, ho'⟩ := h
  refine ⟨by rwa [f.credit_bodyStart], hlive.jLeft, ?_, by rwa [f.credit_inner], hlive.oLeft, ?_⟩
  all_goals
    unfold Frame.credit
    split <;> simp only <;> omega

end

/-! ### `Complete()` on the innermost frame -/

/-- The state with another loop stack. -/
def State.withStack (s : State) (K : List Frame) : State := { s with loopStack := K }

section
variable {f : Frame} {K : List Frame} {s : State}

theorem creditStack_of_more (h : f.Live) (hmore : 1 < f.stepsLeft) :
    creditStack (f :: K) = (if f.jLeft = 1 then some f.bodyStart else none, f.credit :: K) := by
  rw [creditStack]
  rcases h.cases with ⟨hlt, e⟩ | ⟨hj, hlt, e⟩ | hlast
  · rw [if_pos (by omega), if_neg (by omega), e]
  · rw [if_neg (by omega), if_pos (by omega), if_pos hj, e]
  · have := h.stepsLeft_eq_one_iff.2 hlast
    omega

theorem creditStack_of_last (h : f.Live) (hlast : f.stepsLeft = 1) : creditStack (f :: K) = creditStack K := by
  obtain ⟨hj, ho⟩ := h.stepsLeft_eq_one_iff.1 hlast
  rw [creditStack, if_neg (by omega), if_neg (by omega)]

theorem complete_of_more (h : f.Live) (hmore : 1 < f.stepsLeft) :
    (s.withStack (f :: K)).complete = (f.resume s).withStack (f.credit :: K) := by
  simp only [State.complete, State.withStack, creditStack_of_more h hmore, Frame.resume]
  split <;> rfl

theorem complete_of_last (h : f.Live) (hlast : f.stepsLeft = 1) :
    (s.withStack (f :: K)).complete = (s.withStack K).complete := by
  simp only [State.complete, State.withStack, creditStack_of_last h hlast]

end

/-- Settles O50: the two cases of `Complete()` on a frame within its bounds, whose count falls by one. -/
theorem completeCreditsOneStep : Obligations.CompleteCreditsOneStep := by
  intro s f r hstack hok
  have hs : s = s.withStack (f :: r) := by rw [← hstack]; rfl
  refine ⟨fun hmore => ⟨f.credit, ?_, hok.live.stepsLeft_credit hmore, f.credit_bodyStart, f.credit_inner,
    hok.credit hmore⟩, fun hlast => ?_⟩
  · exact (congrArg State.complete hs).trans (complete_of_more hok.live hmore)
  · exact (congrArg State.complete hs).trans (complete_of_last hok.live hlast)

/-! ### The recursion, one nested Step at a time -/

/-- Going on after a Step, unless it has left the engine halted (45_for.md R156). -/
def whileRunning (k : State → Option State) (t : State) : Option State := if t.running then k t else some t

/-- The recursion's rest of a FOR whose frame would be `f`: the rest of the pass, then the passes after it. -/
def runFrame (once : State → Option State) (f : Frame) (s : State) : Option State :=
  (repeatSteps once f.jLeft s).bind (whileRunning (repeatPasses once f.bodyStart f.inner (f.oLeft - 1)))

section
variable {once : State → Option State} {f : Frame} {s t : State}

theorem whileRunning_of_running {k : State → Option State} (h : t.running = true) : whileRunning k t = k t :=
  if_pos h

theorem whileRunning_of_halted {k : State → Option State} (h : t.running = false) : whileRunning k t = some t :=
  if_neg (by simp [h])

theorem whileRunning_bind (k l : State → Option State) (t : State) :
    (whileRunning k t).bind (whileRunning l) = whileRunning (fun u => (k u).bind (whileRunning l)) t := by
  cases h : t.running with
  | true => rw [whileRunning_of_running h, whileRunning_of_running h]
  | false => rw [whileRunning_of_halted h, whileRunning_of_halted h, Option.bind_some, whileRunning_of_halted h]

theorem repeatSteps_succ (n : Nat) (s : State) :
    repeatSteps once (n + 1) s = (once s).bind (whileRunning (repeatSteps once n)) := by
  rw [repeatSteps]
  cases once s <;> rfl

theorem repeatPasses_succ (body : Word) (inner n : Nat) (s : State) :
    repeatPasses once body inner (n + 1) s = runFrame once ⟨body, inner, inner, n + 1⟩ (s.setPc body) := by
  rw [repeatPasses, runFrame]
  cases repeatSteps once inner (s.setPc body) <;> rfl

/-- A frame's first nested Step, with the rest of the frame still as the recursion has it. -/
theorem runFrame_bind {j : Nat} (hj : f.jLeft = j + 1) (s : State) :
    runFrame once f s = (once s).bind (whileRunning fun t =>
      (repeatSteps once j t).bind (whileRunning (repeatPasses once f.bodyStart f.inner (f.oLeft - 1)))) := by
  rw [runFrame, hj, repeatSteps_succ, Option.bind_assoc]
  simp only [whileRunning_bind]

/-- The recursion counts its FOR down as `Complete()` does the frame: one nested Step, then the credited frame. -/
theorem runFrame_of_more (h : f.Live) (hmore : 1 < f.stepsLeft) (s : State) :
    runFrame once f s = (once s).bind (whileRunning fun t => runFrame once f.credit (f.resume t)) := by
  rcases h.cases with ⟨hlt, e⟩ | ⟨hj, hlt, e⟩ | hlast
  · have hresume : ∀ t, f.resume t = t := fun t => by rw [Frame.resume, if_neg (by omega)]
    rw [runFrame_bind (j := f.jLeft - 1) (by omega)]
    simp only [hresume, e, runFrame]
  · obtain ⟨n, hn⟩ : ∃ n, f.oLeft - 1 = n + 1 := ⟨f.oLeft - 2, by omega⟩
    have hresume : ∀ t, f.resume t = t.setPc f.bodyStart := fun t => by rw [Frame.resume, if_pos hj, State.setPc]
    rw [runFrame_bind (j := 0) hj]
    simp only [hresume, e, hn, ← repeatPasses_succ]
    congr 1
    funext t
    cases ht : t.running with
    | true => simp only [whileRunning_of_running ht, repeatSteps, Option.bind_some]
    | false => simp only [whileRunning_of_halted ht]
  · have := h.stepsLeft_eq_one_iff.2 hlast
    omega

theorem runFrame_of_last (h : f.Live) (hlast : f.stepsLeft = 1) (s : State) : runFrame once f s = once s := by
  obtain ⟨hj, ho⟩ := h.stepsLeft_eq_one_iff.1 hlast
  have hend : ∀ t, whileRunning some t = some t := fun t => by rw [whileRunning, ite_self]
  have hrest : (fun t => (repeatSteps once 0 t).bind
      (whileRunning (repeatPasses once f.bodyStart f.inner (f.oLeft - 1)))) = some := by
    funext t
    rw [ho, repeatSteps, Option.bind_some]
    exact hend t
  rw [runFrame_bind (j := 0) hj, hrest, funext hend, Option.bind_fun_some]

end

/-! ### One level of the recursion against one cycle -/

/-- The state after a Step that the recursion ends in `t`, with `K` the FORs in progress around it: the Step is
credited to the innermost one, unless it has halted the engine. -/
def afterStep (K : List Frame) (t : State) : State := if t.running then (t.withStack K).complete else t

section
variable {f : Frame} {K : List Frame} {s t u : State} {i : Instr}

theorem afterStep_of_halted (h : t.running = false) : afterStep K t = t := if_neg (by simp [h])

theorem afterStep_of_more (hf : f.Live) (hmore : 1 < f.stepsLeft) (h : t.running = true) :
    afterStep (f :: K) t = (f.resume t).withStack (f.credit :: K) := by
  rw [afterStep, if_pos h, complete_of_more hf hmore]

theorem afterStep_of_last (hf : f.Live) (hlast : f.stepsLeft = 1) : afterStep (f :: K) t = afterStep K t := by
  rw [afterStep, afterStep, complete_of_last hf hlast]

theorem afterStep_nil (h : t.loopStack = []) : afterStep [] t = t := by
  have ht : t.withStack [] = t := by rw [← h]; rfl
  rw [afterStep, ht, State.complete_of_nil h, ite_self]

/-- The counts of a loop that starts lie in the range of 45_for.md R152. -/
theorem loopCounts_bounds {o n : Nat} (h : loopCounts i s = some (o, n)) :
    1 ≤ o ∧ o ≤ 4095 ∧ 1 ≤ n ∧ n ≤ (2 ^ (W - 1) - 1) / 4096 := by
  unfold loopCounts at h
  split at h
  · split at h
    · exact positiveCounts_bounds h
    · cases h
  · cases h

/-- An update that starts no loop does the same under another loop stack, but that a halted engine has none. -/
theorem Update.apply_withStack {e : Update} (he : e.loopCounts = none) (hrun : s.running = true) :
    (e.apply (s.withStack K)).complete = afterStep K (e.apply s) := by
  cases e with
  | loop o n => cases he
  | halt => rfl
  | acc _ | store _ | next | goTo _ | spin =>
    rw [afterStep, if_pos (by exact hrun)]
    rfl

theorem Update.apply_loopStack {e : Update} (he : e.loopCounts = none) (hs : s.loopStack = []) :
    (e.apply s).loopStack = [] := by
  cases e with
  | loop o n => cases he
  | halt => rfl
  | acc _ | store _ | next | goTo _ | spin => exact hs

/-- A Step of the recursion that starts no loop is the cycle of the loop-stack machine, with the Step credited. -/
def EndsAtOnce (s t : State) : Prop :=
  (s.loopStack = [] → t.loopStack = []) ∧ (∀ d, recStep (d + 1) s = some t) ∧
    ∀ K, cycle (s.withStack K) = afterStep K t

/-- A Step of the recursion that starts a loop goes on with it, and the cycle pushes its frame. -/
def StartsFrame (s : State) (f : Frame) : Prop :=
  f.Live ∧ (∀ d, recStep (d + 1) s = runFrame (recStep d) f (s.setPc f.bodyStart)) ∧
    ∀ K, cycle (s.withStack K) = (s.setPc f.bodyStart).withStack (f :: K)

theorem endsAtOnce_of_raise {c : Condition} (h : ∀ d, recStep (d + 1) s = some (s.takeFault c))
    (hraise : ∀ K, raisedBy (s.withStack K) = some c) : EndsAtOnce s (s.takeFault c) := by
  refine ⟨fun _ => rfl, h, fun K => ?_⟩
  rw [cycle_of_step (step_of_raisedBy (hraise K)), afterStep_of_halted rfl]
  rfl

/-- Each level of the recursion is one cycle of the loop-stack machine. -/
theorem recStep_succ_cases (hrun : s.running = true) : (∃ t, EndsAtOnce s t) ∨ ∃ f, StartsFrame s f := by
  have hinputs : ∀ K, SameInputs s (s.withStack K) := fun K => ⟨rfl, rfl, rfl⟩
  cases hf : fetchInstr s with
  | error c =>
    exact .inl ⟨_, endsAtOnce_of_raise (fun d => by rw [recStep, hf])
      fun K => raisedBy_of_fetchInstr_error hrun hf⟩
  | ok i =>
    cases hc : loopCounts i s with
    | some p =>
      obtain ⟨o, n⟩ := p
      obtain ⟨ho, _, hn, _⟩ := loopCounts_bounds hc
      refine .inr ⟨⟨s.bodyStart, n, n, o⟩, ⟨hn, hn, ho⟩, fun d => ?_, fun K => ?_⟩
      · obtain ⟨k, rfl⟩ : ∃ k, o = k + 1 := ⟨o - 1, by omega⟩
        simp only [recStep, hf, hc]
        exact repeatPasses_succ ..
      · have hcK : loopCounts i (s.withStack K) = some (o, n) := ((hinputs K).loopCounts_eq i).symm.trans hc
        rw [cycle_of_step (step_of_handle_ok (s := s.withStack K) hrun hf (handle_of_loopCounts hcK)),
          finishCycle_of_loop _ hcK]
        rfl
    | none =>
      have hrec : ∀ {t} d, exec i s = .next t → recStep (d + 1) s = some t :=
        fun d h => by simp only [recStep, hf, hc, h]
      cases hh : handle i s with
      | error c =>
        refine .inl ⟨_, endsAtOnce_of_raise (fun d => hrec d (exec_of_handle_error hh)) fun K => ?_⟩
        rcases (hinputs K).handle_alike i with ⟨c', hs, hsK⟩ | ⟨e, _, hs, _⟩ <;> cases hh.symm.trans hs
        exact raisedBy_of_handle_error (s := s.withStack K) hrun hf hsK
      | ok t =>
        refine .inl ⟨t, fun hs => ?_, fun d => hrec d (exec_of_handle_ok hh), fun K => ?_⟩
        · rcases (hinputs []).handle_alike i with ⟨c', hs', _⟩ | ⟨e, he, hs', _⟩ <;> cases hh.symm.trans hs'
          exact Update.apply_loopStack (he.trans hc) hs
        · rcases (hinputs K).handle_alike i with ⟨c', hs', _⟩ | ⟨e, he, hs', hsK⟩ <;> cases hh.symm.trans hs'
          have hcK : loopCounts i (s.withStack K) = none := ((hinputs K).loopCounts_eq i).symm.trans hc
          rw [cycle_of_step (step_of_handle_ok (s := s.withStack K) hrun hf hsK), finishCycle_of_complete _ hcK]
          exact Update.apply_withStack (he.trans hc) hrun

end

/-! ### One nested Step of a frame against one Step under that frame -/

/-- The commuting diagram: after a nested Step that ended in `v`, either the FOR of `f` is at its end, for the
recursion and for the stack alike, or both go on from the same state with the credited frame. -/
theorem frame_after_step {f : Frame} (hf : f.Live) (v : State) :
    ((∀ K, afterStep (f :: K) v = afterStep K v) ∧
      ∀ once s, once s = some v → runFrame once f s = some v) ∨
    (v.running = true ∧ f.credit.Live ∧ f.credit.stepsLeft < f.stepsLeft ∧
      (∀ K, afterStep (f :: K) v = (f.resume v).withStack (f.credit :: K)) ∧
      ∀ once s, once s = some v → runFrame once f s = runFrame once f.credit (f.resume v)) := by
  by_cases hmore : 1 < f.stepsLeft
  · cases hrun : v.running with
    | false =>
      refine .inl ⟨fun K => by rw [afterStep_of_halted hrun, afterStep_of_halted hrun], fun once s h => ?_⟩
      rw [runFrame_of_more hf hmore, h, Option.bind_some, whileRunning_of_halted hrun]
    | true =>
      have hcount := hf.stepsLeft_credit hmore
      refine .inr ⟨rfl, hf.credit hmore, by omega, fun K => afterStep_of_more hf hmore hrun, fun once s h => ?_⟩
      rw [runFrame_of_more hf hmore, h, Option.bind_some, whileRunning_of_running hrun]
  · have hlast : f.stepsLeft = 1 := by
      have := hf.one_le_stepsLeft
      omega
    exact .inl ⟨fun K => afterStep_of_last hf hlast, fun once s h => (runFrame_of_last hf hlast s).trans h⟩

/-- The rest of a FOR begins with a nested Step, so it ends only if that Step does. -/
theorem exists_once_of_runFrame {once : State → Option State} {f : Frame} {s t : State} (hf : f.Live)
    (h : runFrame once f s = some t) : ∃ v, once s = some v := by
  rw [runFrame_bind (j := f.jLeft - 1) (by have := hf.jLeft; omega)] at h
  obtain ⟨v, hv, _⟩ := Option.bind_eq_some_iff.1 h
  exact ⟨v, hv⟩

/-! ### From the recursion to cycles -/

/-- What `once` ends in `t`, the loop-stack machine runs to the state after that Step, under any FORs in progress. -/
def RunByCycles (once : State → Option State) : Prop :=
  ∀ (s t u : State) (K : List Frame) (n : Nat), s.running = true → once s = some t → EndsIn n (afterStep K t) u →
    ∃ m, EndsIn m (cycle (s.withStack K)) u

/-- A FOR whose nested Steps are run by cycles is run by cycles: induction on its Steps left. -/
theorem RunByCycles.runFrame {once : State → Option State} (honce : RunByCycles once) (k : Nat) :
    ∀ (f : Frame) (s t u : State) (K : List Frame) (n : Nat), f.stepsLeft = k → f.Live → s.running = true →
      runFrame once f s = some t → EndsIn n (afterStep K t) u → ∃ m, EndsIn m (s.withStack (f :: K)) u := by
  induction k using Nat.strong_induction_on with
  | h k ih =>
    intro f s t u K n hk hf hrun ht hend
    obtain ⟨v, hv⟩ := exists_once_of_runFrame hf ht
    have hrest : ∃ m, EndsIn m (afterStep (f :: K) v) u := by
      rcases frame_after_step hf v with ⟨hstack, hrec⟩ | ⟨hvrun, hlive, hlt, hstack, hrec⟩
      · cases (hrec once s hv).symm.trans ht
        exact ⟨n, by rwa [hstack]⟩
      · rw [hstack]
        exact ih _ (hk ▸ hlt) f.credit (f.resume v) t u K n rfl hlive hvrun ((hrec once s hv).symm.trans ht) hend
    obtain ⟨m, hm⟩ := hrest
    obtain ⟨m', hm'⟩ := honce s v u (f :: K) m hrun hv hm
    exact ⟨m' + 1, .cycle ⟨hrun, List.cons_ne_nil f K⟩ hm'⟩

theorem recStep_runByCycles (d : Nat) : RunByCycles (recStep d) := by
  induction d with
  | zero => nofun
  | succ d ih =>
    intro s t u K n hrun ht hend
    rcases recStep_succ_cases hrun with ⟨t', _, hrec, hcycle⟩ | ⟨f, hf, hrec, hcycle⟩
    · cases (hrec d).symm.trans ht
      exact ⟨n, by rwa [hcycle K]⟩
    · rw [hcycle K]
      exact ih.runFrame f.stepsLeft f _ t u K n rfl hf hrun ((hrec d).symm.trans ht) hend

/-! ### A greater depth of the recursion changes no end it has -/

/-- Wherever `once` ends, `once'` ends in the same state. -/
def Extends (once once' : State → Option State) : Prop := ∀ s t, once s = some t → once' s = some t

section
variable {once once' : State → Option State}

theorem Extends.whileRunning (h : Extends once once') : Extends (whileRunning once) (whileRunning once') := by
  intro s t hs
  cases hrun : s.running with
  | true =>
    rw [whileRunning_of_running hrun] at hs ⊢
    exact h s t hs
  | false => rwa [whileRunning_of_halted hrun] at hs ⊢

theorem Extends.bind {s : State} {k k' : State → Option State} (h : Extends once once') (hk : Extends k k') {t : State}
    (hs : (once s).bind k = some t) : (once' s).bind k' = some t := by
  obtain ⟨v, hv, ht⟩ := Option.bind_eq_some_iff.1 hs
  exact Option.bind_eq_some_iff.2 ⟨v, h s v hv, hk v t ht⟩

theorem Extends.repeatSteps (h : Extends once once') (n : Nat) :
    Extends (repeatSteps once n) (repeatSteps once' n) := by
  induction n with
  | zero => exact fun _ _ hs => hs
  | succ n ih =>
    intro s t hs
    rw [repeatSteps_succ] at hs ⊢
    exact h.bind ih.whileRunning hs

theorem Extends.repeatPasses (h : Extends once once') (body : Word) (inner n : Nat) :
    Extends (repeatPasses once body inner n) (repeatPasses once' body inner n) := by
  induction n with
  | zero => exact fun _ _ hs => hs
  | succ n ih =>
    intro s t hs
    rw [repeatPasses_succ] at hs ⊢
    exact (h.repeatSteps inner).bind ih.whileRunning hs

theorem Extends.runFrame (h : Extends once once') (f : Frame) : Extends (runFrame once f) (runFrame once' f) :=
  fun _ _ hs => (h.repeatSteps f.jLeft).bind (h.repeatPasses f.bodyStart f.inner (f.oLeft - 1)).whileRunning hs

end

theorem recStep_extends_succ (d : Nat) : Extends (recStep d) (recStep (d + 1)) := by
  induction d with
  | zero => nofun
  | succ d ih =>
    intro s t h
    cases hf : fetchInstr s with
    | error c => simpa only [recStep, hf] using h
    | ok i =>
      cases hc : loopCounts i s with
      | none => simpa only [recStep, hf, hc] using h
      | some p =>
        rw [recStep] at h ⊢
        simp only [hf, hc] at h ⊢
        exact ih.repeatPasses _ _ _ s t h

theorem recStep_extends {d d' : Nat} (h : d ≤ d') : Extends (recStep d) (recStep d') := by
  induction h with
  | refl => exact fun _ _ hs => hs
  | step _ ih => exact fun s t hs => recStep_extends_succ _ s t (ih s t hs)

/-! ### From cycles to the recursion -/

/-- What the loop-stack machine ends in `n` cycles from the cycle at `s`, the recursion splits at the end `t` of the
Step that starts at `s`: some depth ends that Step in `t`, and no more cycles are left after it. -/
def RunByRecursion (n : Nat) : Prop :=
  ∀ (s u : State) (K : List Frame), s.running = true → EndsIn n (cycle (s.withStack K)) u →
    ∃ d t m, m ≤ n ∧ recStep d s = some t ∧ EndsIn m (afterStep K t) u

/-- The same for the rest of a FOR, whose nested Steps take fewer cycles each: induction on the cycles. -/
theorem runFrame_of_endsIn (n : Nat) (hstep : ∀ m < n, RunByRecursion m) :
    ∀ (f : Frame) (s u : State) (K : List Frame), f.Live → s.running = true → EndsIn n (s.withStack (f :: K)) u →
      ∃ d t m, m ≤ n ∧ runFrame (recStep d) f s = some t ∧ EndsIn m (afterStep K t) u := by
  induction n using Nat.strong_induction_on with
  | h n ih =>
    intro f s u K hf hrun hend
    have hbusy : Busy (s.withStack (f :: K)) := ⟨hrun, List.cons_ne_nil f K⟩
    cases hend with
    | idle hidle => exact absurd hbusy hidle
    | @cycle n _ _ _ hend =>
      obtain ⟨d, v, m, hm, hv, hend⟩ := hstep n (Nat.lt_succ_self n) s u (f :: K) hrun hend
      rcases frame_after_step hf v with ⟨hstack, hrec⟩ | ⟨hvrun, hlive, _, hstack, hrec⟩
      · exact ⟨d, v, m, by omega, hrec _ s hv, hstack K ▸ hend⟩
      · rw [hstack] at hend
        obtain ⟨d', t, m', hm', ht, hend⟩ :=
          ih m (by omega) (fun k hk => hstep k (by omega)) f.credit (f.resume v) u K hlive hvrun hend
        refine ⟨max d d', t, m', by omega, ?_, hend⟩
        rw [hrec _ s (recStep_extends (Nat.le_max_left d d') s v hv)]
        exact (recStep_extends (Nat.le_max_right d d')).runFrame _ _ t ht

theorem runByRecursion (n : Nat) : RunByRecursion n := by
  induction n using Nat.strong_induction_on with
  | h n ih =>
    intro s u K hrun hend
    rcases recStep_succ_cases hrun with ⟨t, _, hrec, hcycle⟩ | ⟨f, hf, hrec, hcycle⟩
    · exact ⟨1, t, n, Nat.le_refl n, hrec 0, hcycle K ▸ hend⟩
    · rw [hcycle K] at hend
      obtain ⟨d, t, m, hm, ht, hend⟩ := runFrame_of_endsIn n ih f (s.setPc f.bodyStart) u K hf hrun hend
      exact ⟨d + 1, t, m, hm, (hrec d).trans ht, hend⟩

/-! ### The recursion has no loop stack -/

/-- `once` gives back a state with no FOR in progress from one with none. -/
def KeepsNoLoop (once : State → Option State) : Prop :=
  ∀ s t, s.running = true → s.loopStack = [] → once s = some t → t.loopStack = []

theorem KeepsNoLoop.runFrame {once : State → Option State} (honce : KeepsNoLoop once) (k : Nat) :
    ∀ f : Frame, f.stepsLeft = k → f.Live → KeepsNoLoop (runFrame once f) := by
  induction k using Nat.strong_induction_on with
  | h k ih =>
    intro f hk hf s t hrun hs ht
    obtain ⟨v, hv⟩ := exists_once_of_runFrame hf ht
    have hvstack := honce s v hrun hs hv
    rcases frame_after_step hf v with ⟨_, hrec⟩ | ⟨hvrun, hlive, hlt, _, hrec⟩
    · cases (hrec once s hv).symm.trans ht
      exact hvstack
    · exact ih _ (hk ▸ hlt) f.credit rfl hlive (f.resume v) t hvrun hvstack ((hrec once s hv).symm.trans ht)

theorem recStep_keepsNoLoop (d : Nat) : KeepsNoLoop (recStep d) := by
  induction d with
  | zero => nofun
  | succ d ih =>
    intro s t hrun hs ht
    rcases recStep_succ_cases hrun with ⟨t', hstack, hrec, _⟩ | ⟨f, hf, hrec, _⟩
    · cases (hrec d).symm.trans ht
      exact hstack hs
    · exact ih.runFrame f.stepsLeft f rfl hf (s.setPc f.bodyStart) t hrun hs ((hrec d).symm.trans ht)

/-! ### The equivalence -/

/-- A top-level Step of a halted engine ends at once, by either definition (40_step_and_system.md R94). -/
theorem topStepsTo_iff_recStepsTo_of_halted {s : State} (hrun : s.running = false) (t : State) :
    TopStepsTo s t ↔ RecStepsTo s t := by
  obtain ⟨_, htop⟩ := haltedEngineIgnoresStep s hrun
  have hrec : ∀ d, recTopStep d s = some s := fun d => by rw [recTopStep, if_neg (by simp [hrun])]
  constructor
  · rintro ⟨k, r, h⟩
    cases k with
    | zero => cases h
    | succ k =>
      cases (htop k).symm.trans h
      exact ⟨0, hrec 0⟩
  · rintro ⟨d, h⟩
    cases (hrec d).symm.trans h
    exact ⟨1, none, htop 0⟩

/-- Settles O51: with no FOR in progress around the Step, the state after it is the state the recursion ends in. -/
theorem loopStackEquivalentToRecursion : Obligations.LoopStackEquivalentToRecursion := by
  intro s t hs
  cases hrun : s.running with
  | false => exact topStepsTo_iff_recStepsTo_of_halted hrun t
  | true =>
    have hnil : s.withStack [] = s := by rw [← hs]; rfl
    have hrec : ∀ d, recTopStep d s = recStep d s := fun d => if_pos hrun
    rw [topStepsTo_iff]
    constructor
    · rintro ⟨n, hend⟩
      obtain ⟨d, v, m, _, hv, hend⟩ := runByRecursion n s t [] hrun (hnil.symm ▸ hend)
      have hvstack := recStep_keepsNoLoop d s v hrun hs hv
      rw [afterStep_nil hvstack] at hend
      cases hend with
      | idle => exact ⟨d, (hrec d).trans hv⟩
      | cycle hbusy => exact absurd hvstack hbusy.2
    · rintro ⟨d, h⟩
      rw [hrec] at h
      have htstack := recStep_keepsNoLoop d s t hrun hs h
      have hend : EndsIn 0 (afterStep [] t) t := by
        rw [afterStep_nil htstack]
        exact .idle fun hbusy => hbusy.2 htstack
      exact hnil ▸ recStep_runByCycles d s t t [] 0 hrun h hend

end Sys2Proof.Machine

/-! Proofs about what every instruction and every cycle keeps (spec/10_state.md sections 2 to 4, 20_memory.md,
60_exceptions.md section 3), each read off `Effect`, which says once all a handler can do. -/

namespace Sys2Proof.Machine

/-! ### Frames of an effect and of the end of a cycle -/

section
variable {i : Instr} {s t : State}

/-- No effect touches the fault registers or the Code Store. -/
structure Effect.Frame (s t : State) : Prop where
  faultCause : t.faultCause = s.faultCause
  faultInfo  : t.faultInfo = s.faultInfo
  codeOp     : t.codeOp = s.codeOp
  codeArg    : t.codeArg = s.codeArg

theorem Effect.frame (h : Effect i s t) : Effect.Frame s t := by
  cases h <;> exact ⟨rfl, rfl, rfl, rfl⟩

theorem Effect.acc_eq (h : Effect i s t) (hi : writesAcc i = false) : t.acc = s.acc := by
  cases h with
  | acc v hw => rw [hi] at hw; cases hw
  | _ => rfl

/-- Only STO touches Memory and `changed_index`. -/
theorem Effect.mem_eq (h : Effect i s t) (hi : ∀ m arg, i ≠ .sto m arg) :
    t.mem = s.mem ∧ t.changedIndex = s.changedIndex := by
  cases h with
  | store m arg a hsto => exact absurd hsto (hi m arg)
  | _ => exact ⟨rfl, rfl⟩

/-- Only HALT touches the running flag. -/
theorem Effect.running_cases (h : Effect i s t) :
    t.running = s.running ∨ (∃ m arg, i = .halt m arg) ∧ t = s.haltEngine := by
  cases h with
  | halt m arg hi => exact .inr ⟨⟨m, arg, hi⟩, rfl⟩
  | _ => exact .inl rfl

/-- The end of a cycle moves `pc` and the loop stack at most (45_for.md R159). -/
theorem finishCycle_frame (i : Instr) (s t : State) :
    ∃ p K, finishCycle i s t = { t with pc := p, loopStack := K } := by
  unfold finishCycle
  split
  · exact ⟨t.pc, t.loopStack, rfl⟩
  · exact ⟨_, _, rfl⟩

/-- HALT and a fault leave no FOR to credit. -/
theorem finishCycle_of_nil (i : Instr) (s : State) (ht : t.loopStack = []) : finishCycle i s t = t := by
  unfold finishCycle
  split
  · rfl
  · exact State.complete_of_nil ht

theorem handle_halt_ok {m : Mode} {arg : Word} (h : handle (.halt m arg) s = .ok t) :
    m = .direct ∧ t = s.haltEngine := by
  by_cases hm : m = .direct
  · subst hm
    rw [handle, handleHalt, requireMode_direct, bind_ok] at h
    cases h
    exact ⟨rfl, rfl⟩
  · rw [handle, handleHalt, requireMode_ne_direct hm, bind_error] at h
    cases h

end

/-! ### What the instructions keep -/

/-- Settles O41: of the effects only the one of an instruction that writes `acc` changes it, and a fault keeps it. -/
theorem onlyNamedInstructionsWriteAcc : Obligations.OnlyNamedInstructionsWriteAcc := by
  intro i s t hexec hacc
  have hwrites : writesAcc i = true := by
    rcases exec_cases i s with ⟨u, hh, he⟩ | ⟨c, _, he⟩ <;> cases he.symm.trans hexec
    · by_contra hw
      exact hacc ((handle_effect hh).acc_eq (by simpa using hw))
    · exact absurd rfl hacc
  refine ⟨i.mode, i.arg, ?_⟩
  cases i with
  | nop | sto | jump | jmpz | forLoop | unused0E | halt => cases hwrites
  | _ => simp [Instr.mode, Instr.arg]

/-- Settles O42: of the effects only STO's touches Memory, none the Code Store, and the fault action neither. -/
theorem nonStoringInstructionsKeepMemory : Obligations.NonStoringInstructionsKeepMemory := by
  intro i s t hi hexec
  rcases exec_cases i s with ⟨u, hh, he⟩ | ⟨c, hh, he⟩ <;> cases he.symm.trans hexec
  · obtain ⟨hmem, hchanged⟩ := (handle_effect hh).mem_eq hi
    obtain ⟨hcause, hinfo, hop, harg⟩ := (handle_effect hh).frame
    exact ⟨fun a => by rw [hmem], hchanged, fun a => by rw [hop, harg]; exact ⟨rfl, rfl⟩, fun _ => ⟨hcause, hinfo⟩⟩
  · refine ⟨fun a => rfl, rfl, fun a => ⟨rfl, rfl⟩, fun ⟨u, hu⟩ => ?_⟩
    cases hh.symm.trans hu

/-! ### STO -/

section
variable {m : Mode} {arg a : Word} {s : State}

/-- STO after its target computation: the range check, the write, and `advance` (41_load_store.md R107). -/
theorem handle_sto_of_target (h : storeTarget m arg s = .ok a) :
    handle (.sto m arg) s = memWrite a s.acc s >>= fun t => pure t.advance := by
  rw [handle, handleSto, h, bind_ok]

theorem handle_sto_valid (h : storeTarget m arg s = .ok a) (ha : ValidAddress a) :
    handle (.sto m arg) s = .ok (s.storeWord a s.acc).advance := by
  rw [handle_sto_of_target h, memWrite_valid _ ha, bind_ok, pure_ok]

theorem handle_sto_invalid (h : storeTarget m arg s = .ok a) (ha : ¬ ValidAddress a) :
    handle (.sto m arg) s = .error (.outOfRangeAddress a) := by
  rw [handle_sto_of_target h, memWrite_invalid _ ha, bind_error]

theorem handle_sto_no_target {c : Condition} (h : storeTarget m arg s = .error c) :
    handle (.sto m arg) s = .error c :=
  bind_of_error h

end

/-- Settles O43: the write of a valid target is the one change; with no valid target the fault action writes no
cell. -/
theorem stoWritesOnlyItsTarget : Obligations.StoWritesOnlyItsTarget := by
  intro m arg s t hexec
  cases htarget : storeTarget m arg s with
  | error c =>
    cases (exec_of_handle_error (handle_sto_no_target htarget)).symm.trans hexec
    exact ⟨nofun, nofun, fun _ _ => ⟨fun _ => rfl, rfl⟩, nofun, rfl, rfl, rfl⟩
  | ok a =>
    by_cases ha : ValidAddress a
    · cases (exec_of_handle_ok (handle_sto_valid htarget ha)).symm.trans hexec
      refine ⟨?_, ?_, nofun, ?_, rfl, rfl, rfl⟩
      · rintro _ ⟨⟩ b hb
        exact State.storeWord_read_other s a s.acc hb
      · rintro _ ⟨⟩ hinvalid
        exact absurd ha hinvalid
      · rintro _ ⟨⟩ _ hwf
        exact ⟨State.storeWord_read_same a s.acc hwf, rfl⟩
    · cases (exec_of_handle_error (handle_sto_invalid htarget ha)).symm.trans hexec
      refine ⟨fun _ _ _ _ => rfl, fun _ _ _ => ⟨fun _ => rfl, rfl⟩, nofun, ?_, rfl, rfl, rfl⟩
      rintro _ ⟨⟩ hvalid
      exact absurd hvalid ha

/-! ### What every cycle keeps -/

/-- Settles O44: no effect, no end of a cycle and no fault touches the Code Store, and none sets the flag. -/
theorem cyclesNeverWriteCodeNorStartEngine : Obligations.CyclesNeverWriteCodeNorStartEngine := by
  intro s t hstep
  rcases step_cases s with ⟨_, h⟩ | ⟨hrun, c, _, h⟩ | ⟨hrun, _, i, u, _, hh, h⟩ <;> cases h.symm.trans hstep
  · exact ⟨rfl, rfl, id⟩
  · exact ⟨rfl, rfl, fun _ => hrun⟩
  · obtain ⟨_, _, hop, harg⟩ := (handle_effect hh).frame
    obtain ⟨p, K, hfinish⟩ := finishCycle_frame i s u
    rw [hfinish]
    exact ⟨hop, harg, fun _ => hrun⟩

theorem step_keeps_faultRegisters {s t : State} (hraise : raisedBy s = none) (hstep : step s = .next t) :
    t.faultCause = s.faultCause ∧ t.faultInfo = s.faultInfo := by
  rcases step_cases s with ⟨_, h⟩ | ⟨_, c, hc, _⟩ | ⟨_, _, i, u, _, hh, h⟩
  · cases h.symm.trans hstep
    exact ⟨rfl, rfl⟩
  · cases hc.symm.trans hraise
  · cases h.symm.trans hstep
    obtain ⟨hcause, hinfo, _, _⟩ := (handle_effect hh).frame
    obtain ⟨p, K, hfinish⟩ := finishCycle_frame i s u
    rw [hfinish]
    exact ⟨hcause, hinfo⟩

/-- Settles O39: a cycle without a condition has an effect's frame, and the host's other moves write other fields. -/
theorem faultRegistersAreSticky : Obligations.FaultRegistersAreSticky := by
  refine ⟨fun s t => step_keeps_faultRegisters, fun op s t hreset hclear h => ?_⟩
  cases op with
  | reset => exact absurd rfl hreset
  | clear => exact absurd rfl hclear
  | setCode j op arg =>
    obtain ⟨_, _, rfl⟩ := setCode_ok h
    exact ⟨rfl, rfl⟩
  | setData j v =>
    obtain ⟨_, _, rfl⟩ := setData_ok h
    exact ⟨rfl, rfl⟩
  | setRunning b =>
    obtain ⟨_, h⟩ := offered_ok h
    cases h
    exact ⟨rfl, rfl⟩

theorem Condition.code_ne_zero (c : Condition) : c.code ≠ 0 := by
  cases c <;> simp only [Condition.code] <;> decide

/-- Settles O40: of the effects only HALT's clears the flag, and its handler accepts the direct mode alone. -/
theorem engineStopsByHaltOrFault : Obligations.EngineStopsByHaltOrFault := by
  intro s t hrun hstep hhalted
  rcases step_cases s with ⟨h, _⟩ | ⟨_, c, hc, h⟩ | ⟨_, hnone, i, u, hf, hh, h⟩
  · cases h.symm.trans hrun
  · cases h.symm.trans hstep
    exact .inr ⟨c, hc, rfl, c.code_ne_zero, rfl, rfl, rfl, rfl⟩
  · cases h.symm.trans hstep
    rcases (handle_effect hh).running_cases with hsame | ⟨⟨m, arg, rfl⟩, rfl⟩
    · obtain ⟨p, K, hfinish⟩ := finishCycle_frame i s u
      rw [hfinish] at hhalted
      cases (hhalted.symm.trans hsame).trans hrun
    · obtain ⟨rfl, _⟩ := handle_halt_ok hh
      exact .inl ⟨⟨arg, hf⟩, hnone, finishCycle_of_nil _ s rfl⟩

/-! ### The records steer nothing -/

/-- The two states agree in every field a cycle reads to find its instruction and to run it. -/
structure SameEngine (s u : State) : Prop extends SameInputs s u where
  running : s.running = u.running
  codeOp  : s.codeOp = u.codeOp
  codeArg : s.codeArg = u.codeArg

section
variable {s u : State}

theorem SameEngine.fetchInstr_eq (h : SameEngine s u) : fetchInstr s = fetchInstr u := by
  rw [fetchInstr, fetchInstr, codeRead, codeRead, h.pc, h.codeOp, h.codeArg]

theorem SameEngine.raisedBy_eq (h : SameEngine s u) : raisedBy s = raisedBy u := by
  rw [raisedBy, raisedBy, h.running, h.fetchInstr_eq]
  cases fetchInstr u with
  | error c => rfl
  | ok i => rcases h.handle_alike i with ⟨c, hs, hu⟩ | ⟨e, _, hs, hu⟩ <;> simp only [hs, hu]

/-- The two states differ in the fault registers and `changed_index` at most. -/
def SameButRecords (s u : State) : Prop :=
  { s with faultCause := u.faultCause, faultInfo := u.faultInfo, changedIndex := u.changedIndex } = u

theorem SameButRecords.sameEngine (h : SameButRecords s u) : SameEngine s u := by
  rw [SameButRecords] at h
  rw [← h]
  exact ⟨⟨rfl, rfl, rfl⟩, rfl, rfl, rfl⟩

theorem SameButRecords.takeFault (h : SameButRecords s u) (c : Condition) :
    SameButRecords (s.takeFault c) (u.takeFault c) := by
  rw [SameButRecords] at h
  rw [← h]
  rfl

theorem SameButRecords.apply (h : SameButRecords s u) (e : Update) : SameButRecords (e.apply s) (e.apply u) := by
  rw [SameButRecords] at h
  rw [← h]
  cases e <;> rfl

theorem SameButRecords.complete (h : SameButRecords s u) : SameButRecords s.complete u.complete := by
  rw [SameButRecords] at h
  rw [← h]
  rfl

theorem SameButRecords.step {t v : State} (h : SameButRecords s u) (hs : step s = .next t) (hu : step u = .next v) :
    SameButRecords t v := by
  have hsame := h.sameEngine
  rcases step_cases s with ⟨hrun, ht⟩ | ⟨_, c, hc, ht⟩ | ⟨hrun, _, i, w, hf, hh, ht⟩ <;> cases ht.symm.trans hs
  · cases (step_of_halted (hsame.running.symm.trans hrun)).symm.trans hu
    exact h
  · cases (step_of_raisedBy (hsame.raisedBy_eq.symm.trans hc)).symm.trans hu
    exact h.takeFault c
  · rcases hsame.handle_alike i with ⟨c, hs', _⟩ | ⟨e, _, hs', hu'⟩ <;> cases hh.symm.trans hs'
    have hstep := step_of_handle_ok (hsame.running.symm.trans hrun) (hsame.fetchInstr_eq.symm.trans hf) hu'
    cases hstep.symm.trans hu
    rw [finishCycle, finishCycle, hsame.loopCounts_eq]
    split
    · exact h.apply e
    · exact (h.apply e).complete

end

/-- Settles O45: the two cycles raise alike and make the same update, and no update, fault or end of a cycle reads a
record. -/
theorem recordsNeverSteerExecution : Obligations.RecordsNeverSteerExecution := by
  intro s u t v h hs hu
  have hrecords : SameButRecords s u := h
  exact ⟨hrecords.sameEngine.raisedBy_eq, hrecords.step hs hu⟩

/-! ### Setting the flag again -/

theorem handle_halt_direct (arg : Word) (s : State) : handle (.halt .direct arg) s = .ok s.haltEngine := by
  rw [handle, handleHalt, requireMode_direct, bind_ok, pure_ok]

theorem step_of_halt {s : State} {arg : Word} (hrun : s.running = true)
    (hf : fetchInstr s = .ok (.halt .direct arg)) : step s = .next s.haltEngine := by
  rw [step_of_handle_ok hrun hf (handle_halt_direct arg s), finishCycle_of_nil _ s rfl]

/-- Settles O57: neither a fault nor HALT moves what the engine fetches and reads, so it does the same again. -/
theorem setRunningSetsOnlyTheFlag : Obligations.SetRunningSetsOnlyTheFlag := by
  refine ⟨fun s b hs => ⟨offered_between hs _, offered_between hs _⟩, fun s t c hc hstep => ?_,
    fun s t arg hrun hf hstep => ?_⟩
  · cases (step_of_raisedBy hc).symm.trans hstep
    have hrun : s.running = true := by
      by_contra hhalted
      rw [raisedBy_of_halted (by simpa using hhalted)] at hc
      cases hc
    have hsame : SameEngine s ((s.takeFault c).setRunning true) := ⟨⟨rfl, rfl, rfl⟩, hrun, rfl, rfl⟩
    have hagain := hsame.raisedBy_eq.symm.trans hc
    exact ⟨hagain, step_of_raisedBy hagain⟩
  · cases (step_of_halt hrun hf).symm.trans hstep
    have hsame : SameEngine s (s.haltEngine.setRunning true) := ⟨⟨rfl, rfl, rfl⟩, hrun, rfl, rfl⟩
    have hagain := hsame.fetchInstr_eq.symm.trans hf
    exact ⟨hagain, step_of_halt rfl hagain⟩

end Sys2Proof.Machine

/-! Proofs about the machine's invariant (spec/10_state.md sections 3 to 6): it holds at reset, every cycle keeps it,
and so does every host move and a whole boot. -/

namespace Sys2Proof.Machine

/-! ### Canonical stores -/

section
variable {w : Nat}

/-- A listed value is read back where it is listed first. -/
theorem Memory.read_cons_self (a : Nat) (v : BitVec w) (m : Memory w) : Memory.read ((a, v) :: m) a = v := by
  rw [Memory.read, if_pos rfl]

theorem Memory.read_cons_of_ne {a b : Nat} (v : BitVec w) (m : Memory w) (h : a ≠ b) :
    Memory.read ((a, v) :: m) b = m.read b := by
  rw [Memory.read, if_neg h]

/-- In a canonical store the first index is the least one that reads other than 0. -/
theorem Memory.le_of_read_ne_zero {a b : Nat} {v : BitVec w} {m : Memory w} (h : Memory.wf ((a, v) :: m) = true)
    (hb : Memory.read ((a, v) :: m) b ≠ 0) : a ≤ b := by
  obtain ⟨_, hlt, _⟩ := (Memory.wf_cons a v m).1 h
  by_contra hba
  refine hb (Memory.read_of_lt fun c hc => ?_)
  rcases List.mem_cons.1 hc with rfl | hc
  · exact Nat.lt_of_not_le hba
  · exact Nat.lt_trans (Nat.lt_of_not_le hba) (hlt c hc)

theorem Memory.read_head_ne_zero {a : Nat} {v : BitVec w} {m : Memory w} (h : Memory.wf ((a, v) :: m) = true) :
    Memory.read ((a, v) :: m) a ≠ 0 := by
  obtain ⟨hv, _, _⟩ := (Memory.wf_cons a v m).1 h
  rwa [Memory.read_cons_self]

/-- Two canonical stores that read the same everywhere are equal: the first index of each is the least that reads other
than 0, so the heads agree, and below the heads both rests read 0. -/
theorem Memory.eq_of_read_eq {m n : Memory w} (hm : m.wf = true) (hn : n.wf = true) (h : ∀ a, m.read a = n.read a) :
    m = n := by
  induction m generalizing n with
  | nil =>
    cases n with
    | nil => rfl
    | cons d n => exact absurd (h d.1).symm (Memory.read_head_ne_zero hn)
  | cons c m ih =>
    obtain ⟨a, v⟩ := c
    cases n with
    | nil => exact absurd (h a) (Memory.read_head_ne_zero hm)
    | cons d n =>
      obtain ⟨b, u⟩ := d
      have hab : a = b := Nat.le_antisymm
        (Memory.le_of_read_ne_zero hm (h b ▸ Memory.read_head_ne_zero hn))
        (Memory.le_of_read_ne_zero hn (h a ▸ Memory.read_head_ne_zero hm))
      subst hab
      obtain ⟨_, hma, hm'⟩ := (Memory.wf_cons a v m).1 hm
      obtain ⟨_, hna, hn'⟩ := (Memory.wf_cons a u n).1 hn
      have hvu : v = u := by simpa only [Memory.read_cons_self] using h a
      have htail : m = n := ih hm' hn' fun k => by
        by_cases hk : a = k
        · rw [← hk, Memory.read_of_lt hma, Memory.read_of_lt hna]
        · simpa only [Memory.read_cons_of_ne _ _ hk] using h k
      rw [hvu, htail]

end

/-- Settles O9: by the least index that reads other than 0, and by the law of writes. -/
theorem canonicalStoresAreTheirReads : Obligations.CanonicalStoresAreTheirReads :=
  fun _ _ hm hn => ⟨Memory.eq_of_read_eq hm hn, fun a v => Memory.write_wf a v hm⟩

/-! ### The invariant at reset and under the updates of the state -/

/-- Settles O6: every field at its reset value; the stores list nothing, so they read 0. -/
theorem resetValues : Obligations.ResetValues :=
  ⟨rfl, rfl, fun _ => rfl, fun _ => rfl, fun _ => rfl, rfl, rfl, rfl, by decide, rfl⟩

/-- Settles O46: empty stores, no frame, code 0 and `changed_index` -1. -/
theorem invAtReset : Obligations.InvAtReset where
  memWf := State.reset_mem_wf
  memBounded := rfl
  codeOpWf := State.reset_codeOp_wf
  codeOpBounded := rfl
  codeArgWf := State.reset_codeArg_wf
  codeArgBounded := rfl
  frames := nofun
  haltedNoLoop := fun _ => rfl
  causeKnown := Nat.zero_le 5
  changedKnown := .inl rfl

section
variable {s t : State} {i : Instr}

theorem StateInv.setPc (h : StateInv s) (p : Word) : StateInv (s.setPc p) := { h with }

theorem StateInv.setAcc (h : StateInv s) (v : Word) : StateInv (s.setAcc v) := { h with }

theorem StateInv.advance (h : StateInv s) : StateInv s.advance := h.setPc _

theorem StateInv.storeWord (h : StateInv s) {a : Word} (v : Word) (ha : ValidAddress a) :
    StateInv (s.storeWord a v) :=
  { h with
    memWf := Memory.write_wf _ v h.memWf
    memBounded := Memory.write_bounded v ha.toNat_lt h.memBounded
    changedKnown := .inr ha }

theorem StateInv.haltEngine (h : StateInv s) : StateInv s.haltEngine :=
  { h with
    frames := nofun
    haltedNoLoop := fun _ => rfl }

theorem Condition.code_le (c : Condition) : c.code.toNat ≤ 5 := by
  cases c <;> simp only [Condition.code] <;> decide

theorem StateInv.takeFault (h : StateInv s) (c : Condition) : StateInv (s.takeFault c) :=
  { h with
    frames := nofun
    haltedNoLoop := fun _ => rfl
    causeKnown := c.code_le }

/-- The frame a FOR pushes is within its bounds: it was fetched at `pc`, and its counts come from a count word. -/
theorem StateInv.startLoop (h : StateInv s) (hrun : s.running = true) (hpc : ValidAddress s.pc) {o n : Nat}
    (hc : loopCounts i s = some (o, n)) : StateInv (s.startLoop o n) := by
  obtain ⟨ho, ho', hn, hn'⟩ := loopCounts_bounds hc
  have hbody : ValidAddress (s.bodyStart - 1) := by
    rw [State.bodyStart, wrap_succ]
    simpa using hpc
  have hframe : Frame.ok ⟨s.bodyStart, n, n, o⟩ := ⟨hbody, hn, Nat.le_refl n, hn', ho, ho'⟩
  exact
    { h with
      frames := fun f hf => by
        rcases List.mem_cons.1 hf with rfl | hf
        · exact hframe
        · exact h.frames f hf
      haltedNoLoop := fun hhalted => by cases hrun.symm.trans hhalted }

/-- Crediting a Step keeps every frame of a stack within its bounds: the innermost one is credited or popped. -/
theorem creditStack_frames {st : List Frame} (h : ∀ f ∈ st, Frame.ok f) : ∀ f ∈ (creditStack st).2, Frame.ok f := by
  induction st with
  | nil => exact h
  | cons f r ih =>
    have hf : Frame.ok f := h f (List.mem_cons_self ..)
    have hr : ∀ g ∈ r, Frame.ok g := fun g hg => h g (List.mem_cons_of_mem f hg)
    by_cases hmore : 1 < f.stepsLeft
    · rw [creditStack_of_more hf.live hmore]
      intro g hg
      rcases List.mem_cons.1 hg with rfl | hg
      · exact hf.credit hmore
      · exact hr g hg
    · have hlast : f.stepsLeft = 1 := by
        have := hf.live.one_le_stepsLeft
        omega
      rw [creditStack_of_last hf.live hlast]
      exact ih hr

theorem StateInv.complete (h : StateInv s) : StateInv s.complete :=
  { h with
    frames := creditStack_frames h.frames
    haltedNoLoop := fun hhalted => by
      rw [State.complete_of_nil (h.haltedNoLoop hhalted)]
      exact h.haltedNoLoop hhalted }

theorem StateInv.effect (h : StateInv s) (hrun : s.running = true) (hpc : ValidAddress s.pc) (he : Effect i s t) :
    StateInv t := by
  cases he with
  | acc v => exact (h.setAcc v).advance
  | store m arg a _ _ ha => exact (h.storeWord s.acc ha).advance
  | next => exact h.advance
  | goTo m arg p => exact h.setPc p
  | loop m arg _ o n hc => exact h.startLoop hrun hpc hc
  | spin => exact h
  | halt => exact h.haltEngine

theorem StateInv.finishCycle (h : StateInv t) (i : Instr) (s : State) : StateInv (finishCycle i s t) := by
  unfold Machine.finishCycle
  split
  · exact h
  · exact h.complete

theorem StateInv.step (h : StateInv s) (hstep : step s = .next t) : StateInv t := by
  rcases step_cases s with ⟨_, ht⟩ | ⟨_, c, _, ht⟩ | ⟨hrun, _, i, u, hf, hh, ht⟩ <;> cases ht.symm.trans hstep
  · exact h
  · exact h.takeFault c
  · obtain ⟨hpc, _⟩ := fetchInstr_ok hf
    exact (h.effect hrun hpc (handle_effect hh)).finishCycle i s

end

/-- Settles O47: each case of `step_cases` by the update it makes. -/
theorem invKeptByEveryCycle : Obligations.InvKeptByEveryCycle := fun _ _ h hstep => h.step hstep

/-! ### The end of a top-level Step -/

theorem EndsIn.not_busy {n : Nat} {s t : State} (h : EndsIn n s t) : ¬ Busy t := by
  induction h with
  | idle h => exact h
  | cycle _ _ ih => exact ih

theorem EndsIn.inv {n : Nat} {s t : State} (h : EndsIn n s t) (hs : StateInv s) : StateInv t := by
  induction h with
  | idle => exact hs
  | cycle _ _ ih => exact ih (hs.step (step_eq_cycle _))

/-- A state in the invariant at which a Step is over has no FOR in progress: a halted engine has none either. -/
theorem loopStack_eq_nil_of_not_busy {s : State} (h : StateInv s) (hidle : ¬ Busy s) : s.loopStack = [] := by
  by_contra hstack
  cases hrun : s.running with
  | true => exact hidle ⟨hrun, hstack⟩
  | false => exact hstack (h.haltedNoLoop hrun)

/-- More cycles than a Step needs change neither its end nor its report. -/
theorem topStep_unique {j k : Nat} {s : State} {x y : State × Option Condition} (hj : topStep j s = some x)
    (hk : topStep k s = some y) : x = y := by
  induction j generalizing s k with
  | zero => cases hj
  | succ j ih =>
    cases k with
    | zero => cases hk
    | succ k =>
      by_cases hbusy : Busy (cycle s)
      · rw [topStep_of_busy j hbusy] at hj
        rw [topStep_of_busy k hbusy] at hk
        exact ih hj hk
      · rw [topStep_of_not_busy j hbusy] at hj
        rw [topStep_of_not_busy k hbusy] at hk
        exact Option.some.inj (hj.symm.trans hk)

/-- Settles O52: one end by induction on the cycles allowed; the invariant at the end leaves no FOR in progress. -/
theorem topLevelStepEndsOnce : Obligations.TopLevelStepEndsOnce := by
  refine ⟨fun s t u j k r q hj hk => ?_, fun s t k r hs h => ?_⟩
  · cases topStep_unique hj hk
    exact ⟨rfl, rfl⟩
  · obtain ⟨n, hend⟩ := EndsIn.of_topStep h
    exact loopStack_eq_nil_of_not_busy (hend.inv (hs.step (step_eq_cycle s))) hend.not_busy

end Sys2Proof.Machine

/-! Proofs about the instructions one by one: STO (spec/41_load_store.md), JUMP and JMPZ (42_jumps.md), ADD, SUB, MUL
and DIV (43_arithmetic.md), AND (44_logic_compare.md), HALT (40_step_and_system.md R98). Where instructions share a
handler, its answers are stated once for all of them. -/

namespace Sys2Proof.Machine

/-! ### The four bytes of an opcode -/

/-- The bytes of the four modes of one opcode decode to its instruction, whatever `arg` (30_encoding.md R68). -/
theorem decode_bytes {mk : Mode → Word → Instr} {oc : BitVec 4} {b₀ b₁ b₂ b₃ : Byte}
    (hmk : ∀ m arg, (mk m arg).opcode = oc ∧ (mk m arg).mode = m ∧ (mk m arg).arg = arg)
    (hb : pack oc .direct = b₀ ∧ pack oc .immediate = b₁ ∧ pack oc .indirect = b₂ ∧ pack oc .mode3 = b₃) (arg : Word) :
    decode b₀ arg = .ok (mk .direct arg) ∧ decode b₁ arg = .ok (mk .immediate arg) ∧
      decode b₂ arg = .ok (mk .indirect arg) ∧ decode b₃ arg = .ok (mk .mode3 arg) := by
  have hdecode : ∀ m, decode (pack oc m) arg = .ok (mk m arg) := fun m => by
    obtain ⟨hoc, hm, harg⟩ := hmk m arg
    simpa only [encode, hoc, hm, harg] using decode_encode (mk m arg)
  obtain ⟨rfl, rfl, rfl, rfl⟩ := hb
  exact ⟨hdecode _, hdecode _, hdecode _, hdecode _⟩

/-! ### STO -/

theorem storeWord_advance_eq (s : State) (a : Word) :
    (s.storeWord a s.acc).advance =
      { s with mem := s.mem.write a.toNat s.acc, changedIndex := a, pc := s.pc + 1 } := by
  rw [State.advance_eq]
  rfl

/-- Settles O18: `storeTarget` gives the cell, and the range check of the write decides between store and fault. -/
theorem stoStoresAccumulator : Obligations.StoStoresAccumulator := by
  intro arg
  refine ⟨decode_bytes (mk := .sto) (fun _ _ => ⟨rfl, rfl, rfl⟩) (by decide) arg,
    fun s => ⟨fun ha => ?_, fun ha => ?_, fun target ha htarget hv => ?_, fun ha => ?_, fun target ha htarget hv => ?_,
      exec_of_handle_error rfl, exec_of_handle_error rfl⟩⟩
  · rw [exec_of_handle_ok (handle_sto_valid rfl ha), storeWord_advance_eq]
  · exact exec_of_handle_error (handle_sto_invalid rfl ha)
  · subst htarget
    rw [exec_of_handle_ok (handle_sto_valid (m := .indirect) (memRead_valid ha) hv), storeWord_advance_eq]
  · exact exec_of_handle_error (handle_sto_no_target (m := .indirect) (memRead_invalid ha))
  · subst htarget
    exact exec_of_handle_error (handle_sto_invalid (m := .indirect) (memRead_valid ha) hv)

/-! ### JUMP and JMPZ -/

section
variable {m : Mode} {arg p : Word} {s : State} {c : Condition}

theorem exec_jump_of_target (h : jumpTarget m arg s = .ok p) : exec (.jump m arg) s = .next { s with pc := p } := by
  refine exec_of_handle_ok ?_
  rw [handle, handleJump, h, bind_ok, pure_ok, State.setPc]

theorem exec_jump_of_no_target (h : jumpTarget m arg s = .error c) :
    exec (.jump m arg) s = .next (s.takeFault c) :=
  exec_of_handle_error (bind_of_error h)

theorem jumpTarget_direct (arg : Word) (s : State) : jumpTarget .direct arg s = .ok (s.pc + arg) := by
  rw [jumpTarget, wrap_add]

theorem jumpTarget_indirect_valid (h : ValidAddress arg) :
    jumpTarget .indirect arg s = .ok (s.pc + s.mem.read arg.toNat) := by
  rw [jumpTarget, memRead_valid h, bind_ok, pure_ok, wrap_add]

theorem jumpTarget_indirect_invalid (h : ¬ ValidAddress arg) :
    jumpTarget .indirect arg s = .error (.outOfRangeAddress arg) := by
  rw [jumpTarget, memRead_invalid h, bind_error]

/-- Where JUMP goes in each mode, and when it faults (42_jumps.md R115). -/
theorem exec_jump_cases (arg : Word) (s : State) :
    exec (.jump .direct arg) s = .next { s with pc := s.pc + arg } ∧
    exec (.jump .immediate arg) s = .next { s with pc := arg } ∧
    (ValidAddress arg →
      exec (.jump .indirect arg) s = .next { s with pc := s.pc + s.mem.read arg.toNat } ∧
      exec (.jump .mode3 arg) s = .next { s with pc := s.mem.read arg.toNat }) ∧
    (¬ ValidAddress arg →
      exec (.jump .indirect arg) s = .next (s.takeFault (.outOfRangeAddress arg)) ∧
      exec (.jump .mode3 arg) s = .next (s.takeFault (.outOfRangeAddress arg))) :=
  ⟨exec_jump_of_target (jumpTarget_direct arg s), exec_jump_of_target rfl,
    fun h => ⟨exec_jump_of_target (jumpTarget_indirect_valid h), exec_jump_of_target (memRead_valid h)⟩,
    fun h => ⟨exec_jump_of_no_target (jumpTarget_indirect_invalid h), exec_jump_of_no_target (memRead_invalid h)⟩⟩

/-- A taken JMPZ is JUMP (42_jumps.md R117). -/
theorem exec_jmpz_of_zero (m : Mode) (arg : Word) (h : s.acc = 0) : exec (.jmpz m arg) s = exec (.jump m arg) s := by
  rw [exec_eq_settle, exec_eq_settle, handle, handle, handleJmpz, handleJump, if_pos h]
  cases jumpTarget m arg s <;> rfl

theorem exec_jmpz_of_ne_zero (m : Mode) (arg : Word) (h : s.acc ≠ 0) :
    exec (.jmpz m arg) s = .next { s with pc := s.pc + 1 } := by
  rw [exec_eq_settle, handle, handleJmpz, if_neg h, State.advance_eq, settle]

end

/-- Settles O19: by the jump targets of the four modes. -/
theorem jumpSetsPcPerMode : Obligations.JumpSetsPcPerMode :=
  fun arg => ⟨decode_bytes (mk := .jump) (fun _ _ => ⟨rfl, rfl, rfl⟩) (by decide) arg, exec_jump_cases arg⟩

/-- Settles O20: with `acc = 0` JMPZ is JUMP, and otherwise its handler is `advance`. -/
theorem jmpzJumpsOnZero : Obligations.JmpzJumpsOnZero := by
  intro arg
  refine ⟨decode_bytes (mk := .jmpz) (fun _ _ => ⟨rfl, rfl, rfl⟩) (by decide) arg,
    fun s => ⟨fun h m => exec_jmpz_of_ne_zero m arg h, fun h => ?_⟩⟩
  simp only [exec_jmpz_of_zero _ arg h]
  exact exec_jump_cases arg s

/-! ### ADD, SUB and MUL -/

/-- An instruction `mk` whose handler is `arithmetic` with the function `g`, which is `op` on words: the next state in
each of the three cases. -/
theorem exec_of_handle_arithmetic {oc : BitVec 4} {g : Int → Int → Int} {op : Word → Word → Word}
    {mk : Mode → Word → Instr} (hmk : ∀ m arg s, handle (mk m arg) s = arithmetic oc g m arg s)
    (hop : ∀ a v : Word, wrap (g a.toInt v.toInt) = op a v) (arg : Word) (s : State) (f : Form) :
    (∀ v, OperandIs f arg s v → exec (mk f.mode arg) s = .next { s with acc := op s.acc v, pc := s.pc + 1 }) ∧
    (∀ a, OperandOutOfRange f arg s a → exec (mk f.mode arg) s = .next (s.takeFault (.outOfRangeAddress a))) ∧
    exec (mk .mode3 arg) s = .next (s.takeFault (.illegalAddressingMode oc .mode3)) := by
  have hform : handle (mk f.mode arg) s =
      value f arg s >>= fun v => pure (s.setAcc (wrap (g s.acc.toInt v.toInt))).advance := by
    rw [hmk, arithmetic, requireForm_legal f.mem_all, bind_ok]
  refine ⟨fun v hv => ?_, fun a ha => ?_, ?_⟩
  · rw [value_of_operandIs hv, bind_ok, pure_ok] at hform
    rw [exec_of_handle_ok hform, hop, State.setAcc_advance_eq]
  · rw [value_of_operandOutOfRange ha, bind_error] at hform
    exact exec_of_handle_error hform
  · exact exec_of_handle_error ((hmk _ _ _).trans (bind_of_error (requireForm_illegal (by decide))))

/-- Settles O21: wrapped addition is addition of words. -/
theorem addAddsOperand : Obligations.AddAddsOperand :=
  fun arg => ⟨decode_bytes (mk := .add) (fun _ _ => ⟨rfl, rfl, rfl⟩) (by decide) arg,
    exec_of_handle_arithmetic (mk := .add) (fun _ _ _ => rfl) wrap_add arg⟩

/-- Settles O22: as O21, with `acc` the minuend. -/
theorem subSubtractsOperand : Obligations.SubSubtractsOperand :=
  fun arg => ⟨decode_bytes (mk := .sub) (fun _ _ => ⟨rfl, rfl, rfl⟩) (by decide) arg,
    exec_of_handle_arithmetic (mk := .sub) (fun _ _ _ => rfl) wrap_sub arg⟩

/-- Settles O23: the low word of the product is the product of words. -/
theorem mulMultipliesOperand : Obligations.MulMultipliesOperand :=
  fun arg => ⟨decode_bytes (mk := .mul) (fun _ _ => ⟨rfl, rfl, rfl⟩) (by decide) arg,
    exec_of_handle_arithmetic (mk := .mul) (fun _ _ _ => rfl) wrap_mul arg⟩

/-! ### DIV -/

theorem exec_div_of_operandIs {f : Form} {arg v : Word} {s : State} (h : OperandIs f arg s v) (hv : v ≠ 0) :
    exec (.div f.mode arg) s = .next { s with acc := wrap (Int.tdiv s.acc.toInt v.toInt), pc := s.pc + 1 } := by
  rw [exec_of_handle_ok (handle_div_of_operandIs_ne_zero h hv), State.setAcc_advance_eq, tdiv]

/-- Settles O24: the operand is resolved first, then the divisor tested. -/
theorem divDividesByOperand : Obligations.DivDividesByOperand := by
  intro arg
  refine ⟨decode_bytes (mk := .div) (fun _ _ => ⟨rfl, rfl, rfl⟩) (by decide) arg,
    fun s f => ⟨fun v hv hne => exec_div_of_operandIs hv hne, fun hz => ?_, fun a ha => ?_, ?_⟩⟩
  · exact exec_of_handle_error (handle_div_of_operandIs_zero hz)
  · exact exec_of_handle_error (handle_div_of_operandOutOfRange ha)
  · exact exec_of_handle_error (handle_div_mode3 arg s)

/-! ### AND -/

section
variable {f : Form} {arg : Word} {s : State}

/-- The forms of AND and FOR are the two that make no second access. -/
theorem Form.mem_of_ne_indirect (h : f ≠ .indirect) : f ∈ [Form.direct, .immediate] := by
  cases f with
  | direct | immediate => decide
  | indirect => exact absurd rfl h

/-- AND in a legal form is `value` and then the truth value, whatever `acc` holds. -/
theorem handle_logAnd_form (hf : f ≠ .indirect) :
    handle (.logAnd f.mode arg) s =
      value f arg s >>= fun v => pure (s.setAcc (truth (nonZero s.acc && nonZero v))).advance := by
  rw [handle, handleAnd, requireForm_legal (Form.mem_of_ne_indirect hf), bind_ok]

theorem truth_and_nonZero (a v : Word) : truth (nonZero a && nonZero v) = if a ≠ 0 ∧ v ≠ 0 then 1 else 0 := by
  rw [← truth_decide]
  simp [nonZero, bne, Bool.beq_eq_decide_eq]

end

/-- Settles O25: the operand is resolved before the truth value is taken, in the two legal forms. -/
theorem andIsLogical : Obligations.AndIsLogical := by
  intro arg
  refine ⟨decode_bytes (mk := .logAnd) (fun _ _ => ⟨rfl, rfl, rfl⟩) (by decide) arg,
    fun s => ⟨fun f v hf hv => ?_, fun ha => ?_, ?_, ?_⟩⟩
  · have hh := handle_logAnd_form (arg := arg) (s := s) hf
    rw [value_of_operandIs hv, bind_ok, pure_ok, truth_and_nonZero] at hh
    rw [exec_of_handle_ok hh, State.setAcc_advance_eq]
  · have hh := handle_logAnd_form (f := .direct) (arg := arg) (s := s) nofun
    exact exec_of_handle_error (hh.trans (bind_of_error (memRead_invalid ha)))
  · exact exec_of_handle_error (bind_of_error (requireForm_illegal (by decide)))
  · exact exec_of_handle_error (bind_of_error (requireForm_illegal (by decide)))

/-! ### HALT -/

/-- Settles O31: the mode check, and then the flag and the loop stack alone. -/
theorem haltStopsEngine : Obligations.HaltStopsEngine := by
  intro arg
  refine ⟨decode_bytes (mk := .halt) (fun _ _ => ⟨rfl, rfl, rfl⟩) (by decide) arg, fun s => ⟨?_, fun m hm => ?_⟩⟩
  · exact exec_of_handle_ok (handle_halt_direct arg s)
  · exact exec_of_handle_error (bind_of_error (requireMode_ne_direct hm))

end Sys2Proof.Machine

/-! Proofs about one FOR (spec/45_for.md section 1): the split of its count word, and what its cycle does in either
case. -/

namespace Sys2Proof.Machine

/-! ### The split of a count word -/

section
variable {v : Word}

theorem splitCount_of_nonneg (h : 0 ≤ v.toInt) :
    splitCount v = (((v.toNat % 4096 : Nat) : Int), ((v.toNat / 4096 : Nat) : Int)) := by
  rw [splitCount, Int.tmod_eq_emod_of_nonneg h, Int.tdiv_eq_ediv_of_nonneg h, toInt_eq_toNat_of_nonneg h]
  rfl

/-- Truncation toward zero leaves a negative word no positive count (45_for.md R152, decision D5). -/
theorem splitCount_of_neg (h : v.toInt < 0) : (splitCount v).1 ≤ 0 ∧ (splitCount v).2 ≤ 0 := by
  have hneg : 0 ≤ -v.toInt := by omega
  have hmod := Int.tmod_nonneg 4096 hneg
  have hdiv := Int.tdiv_nonneg hneg (by decide : (0 : Int) ≤ 4096)
  rw [Int.neg_tmod] at hmod
  rw [Int.neg_tdiv] at hdiv
  simp only [splitCount, Config.forSplit]
  omega

/-- The counts put together are the word, whatever its sign. -/
theorem splitCount_fst (v : Word) : (splitCount v).1 = v.toInt - 4096 * (splitCount v).2 :=
  Int.tmod_def v.toInt 4096

theorem positiveCounts_some (h : 0 ≤ v.toInt) (houter : 0 < v.toNat % 4096) (hinner : 0 < v.toNat / 4096) :
    positiveCounts v = some (v.toNat % 4096, v.toNat / 4096) := by
  simp only [positiveCounts, splitCount_of_nonneg h]
  rw [if_pos ⟨by exact_mod_cast houter, by exact_mod_cast hinner⟩, Int.toNat_natCast, Int.toNat_natCast]

theorem positiveCounts_none (h : v.toInt < 0 ∨ v.toNat % 4096 = 0 ∨ v.toNat / 4096 = 0) : positiveCounts v = none := by
  refine if_neg fun hpos => ?_
  by_cases hneg : v.toInt < 0
  · have := splitCount_of_neg hneg
    omega
  · rw [splitCount_of_nonneg (by omega)] at hpos
    simp only at hpos
    omega

end

/-- Settles O49: on the words that are not negative the split is by bit fields; on the others truncation decides. -/
theorem countWordSplit : Obligations.CountWordSplit := by
  intro v
  refine ⟨fun h => ?_, fun h => ?_⟩
  · have hlt : v.toNat < 2147483648 := by
      have hint : v.toInt < 2147483648 := BitVec.toInt_lt
      rw [toInt_eq_toNat_of_nonneg h] at hint
      exact_mod_cast hint
    have houter : (v.extractLsb' 0 12).toNat = v.toNat % 4096 := by
      rw [BitVec.extractLsb'_toNat, Nat.shiftRight_zero]
    have hinner : (v.extractLsb' 12 19).toNat = v.toNat / 4096 := by
      rw [BitVec.extractLsb'_toNat, Nat.shiftRight_eq_div_pow]
      exact Nat.mod_eq_of_lt (by omega)
    have hsplit := splitCount_of_nonneg h
    have hwhole := splitCount_fst v
    rw [houter, hinner]
    rw [hsplit] at hwhole ⊢
    exact ⟨rfl, rfl, hwhole, by omega, by simp only; omega, by omega, by simp only; omega⟩
  · obtain ⟨houter, hinner⟩ := splitCount_of_neg h
    exact ⟨houter, hinner, splitCount_fst v⟩

/-! ### The cycle of a FOR -/

section
variable {f : Form} {arg v : Word} {s : State}

theorem countWord_of_operandIs (hf : f ≠ .indirect) (h : OperandIs f arg s v) :
    countWord f.mode arg s = .ok v := by
  rw [countWord, requireForm_legal (Form.mem_of_ne_indirect hf), bind_ok, value_of_operandIs h]

theorem handle_for_iterates {o n : Nat} (hv : countWord f.mode arg s = .ok v) (hc : positiveCounts v = some (o, n)) :
    handle (.forLoop f.mode arg) s = .ok (s.startLoop o n) :=
  handle_of_loopCounts (by simp only [loopCounts, hv, hc])

/-- A FOR with a count that is not positive completes at once and changes nothing (45_for.md R154). -/
theorem handle_for_spins (hv : countWord f.mode arg s = .ok v) (hc : positiveCounts v = none) :
    handle (.forLoop f.mode arg) s = .ok s := by
  simp only [handle, handleFor, hv, bind_ok, hc, pure_ok]

theorem handle_for_no_count {m : Mode} {c : Condition} (h : countWord m arg s = .error c) :
    handle (.forLoop m arg) s = .error c :=
  bind_of_error h

theorem countWord_illegal {m : Mode} (arg : Word) (s : State) (h : m ∉ [Form.direct, .immediate].map Form.mode) :
    countWord m arg s = .error (.illegalAddressingMode 0xD m) :=
  bind_of_error (requireForm_illegal h)

theorem countWord_out_of_range (h : ¬ ValidAddress arg) :
    countWord .direct arg s = .error (.outOfRangeAddress arg) := by
  have hform : requireForm 0xD [.direct, .immediate] .direct = .ok .direct := requireForm_legal (f := .direct) (by decide)
  rw [countWord, hform, bind_ok, value, memRead_invalid h]

end

/-- Settles O29: the count word by the operand, then the two cases of its split. -/
theorem forStartsLoopOrSpins : Obligations.ForStartsLoopOrSpins := by
  intro arg
  refine ⟨decode_bytes (mk := .forLoop) (fun _ _ => ⟨rfl, rfl, rfl⟩) (by decide) arg,
    fun s => ⟨fun f v hf hv => ⟨fun hnonneg houter hinner => ?_, fun hc => ?_⟩, fun ha => ?_, ?_, ?_⟩⟩
  · have hcounts := positiveCounts_some hnonneg houter hinner
    rw [exec_of_handle_ok (handle_for_iterates (countWord_of_operandIs hf hv) hcounts), State.startLoop,
      State.bodyStart, wrap_succ]
  · exact exec_of_handle_ok (handle_for_spins (countWord_of_operandIs hf hv) (positiveCounts_none hc))
  · exact exec_of_handle_error (handle_for_no_count (countWord_out_of_range ha))
  · exact exec_of_handle_error (handle_for_no_count (countWord_illegal arg s (by decide)))
  · exact exec_of_handle_error (handle_for_no_count (countWord_illegal arg s (by decide)))

/-- A state whose cycle gives it back is where every number of cycles ends. -/
theorem run_of_step_self {s : State} (h : step s = .next s) (k : Nat) : Host.Core.run core k s = .next s := by
  induction k with
  | zero => rfl
  | succ k ih =>
    have hcore : core.step s = .next s := h
    simp only [Host.Core.run, hcore, ih]

/-- Settles O30: the handler gives the state back, and with no FOR in progress there is none to credit. -/
theorem nonIteratingForSpins : Obligations.NonIteratingForSpins := by
  intro s f arg v hrun hstack hf hform hv hc
  have hh := handle_for_spins (countWord_of_operandIs hform hv) (positiveCounts_none hc)
  have hstep : step s = .next s := by rw [step_of_handle_ok hrun hf hh, finishCycle_of_nil _ s hstack]
  exact ⟨raisedBy_of_handle_ok hrun hf hh, hstep, run_of_step_self hstep⟩

end Sys2Proof.Machine

/-! Proofs about the fetch stage and the order of the checks (spec/30_encoding.md R61, R65, 60_exceptions.md sections
1 and 2): which words raise UndefinedOpcode, and which check comes first. -/

namespace Sys2Proof

/-! ### The opcode map and the opcodes without a handler -/

/-- The opcode map refuses exactly the opcodes above the table (30_encoding.md R61). -/
theorem ofFields_error_iff {oc : BitVec 5} {m : Mode} {arg : Word} {r : Reject} :
    Instr.ofFields oc m arg = .error r ↔ 16 ≤ oc.toNat ∧ r = .noHandler oc := by
  constructor
  · intro h
    refine ⟨?_, ofFields_error h⟩
    unfold Instr.ofFields at h
    split at h <;> cases h
    simp only [imp_false] at *
    omega
  · rintro ⟨hoc, rfl⟩
    cases h : Instr.ofFields oc m arg with
    | ok i =>
      obtain ⟨hi, _, _⟩ := ofFields_ok h
      obtain ⟨hlt, _⟩ := opcode_setWidth i.opcode
      rw [← hi] at hlt
      omega
    | error r => rw [ofFields_error h]

theorem decode_of_parity {op : Byte} (arg : Word) (h : checkParity op = true) :
    decode op arg = Instr.ofFields (unpack op).1 (unpack op).2 arg := if_pos h

/-- A word that is not corrupted has even parity. -/
theorem parity_of_decode {op : Byte} {arg : Word} (h : decode op arg ≠ .error .corrupted) : checkParity op = true := by
  by_contra hparity
  exact h ((decode_eq_corrupted_iff op arg).2 (by simpa using hparity))

theorem decode_eq_noHandler_iff {op : Byte} {arg : Word} {oc : BitVec 5} :
    decode op arg = .error (.noHandler oc) ↔ checkParity op = true ∧ oc = (unpack op).1 ∧ 16 ≤ oc.toNat := by
  constructor
  · intro h
    have hparity : checkParity op = true := parity_of_decode (by rw [h]; nofun)
    rw [decode_of_parity arg hparity] at h
    obtain ⟨hge, hoc⟩ := ofFields_error_iff.1 h
    cases hoc
    exact ⟨hparity, rfl, hge⟩
  · rintro ⟨hparity, rfl, hge⟩
    rw [decode_of_parity arg hparity]
    exact ofFields_error_iff.2 ⟨hge, rfl⟩

theorem decode_eq_unused0E_iff {op : Byte} {arg : Word} :
    (∃ m a, decode op arg = .ok (.unused0E m a)) ↔ checkParity op = true ∧ (unpack op).1 = 14 := by
  constructor
  · rintro ⟨m, a, h⟩
    have hparity : checkParity op = true := parity_of_decode (by rw [h]; nofun)
    rw [decode_of_parity arg hparity] at h
    obtain ⟨hoc, _, _⟩ := ofFields_ok h
    exact ⟨hparity, hoc⟩
  · rintro ⟨hparity, hoc⟩
    refine ⟨(unpack op).2, arg, ?_⟩
    rw [decode_of_parity arg hparity, hoc]
    rfl

namespace Machine

/-! ### UndefinedOpcode -/

section
variable {s : State} {oc : BitVec 5}

/-- The opcode of the word at `pc`, five bits since nothing masks bit 7 (30_encoding.md R64). -/
def fetchedOpcode (s : State) : BitVec 5 := (unpack (s.codeOp.read s.pc.toNat)).1

theorem fetchedOpcode_toNat (s : State) : (fetchedOpcode s).toNat = (s.codeOp.read s.pc.toNat).toNat / 8 :=
  unpack_opcode_toNat _

theorem raisedBy_of_undefinedOpcode (hrun : s.running = true) (hpc : ValidAddress s.pc)
    (hparity : checkParity (s.codeOp.read s.pc.toNat) = true)
    (hoc : fetchedOpcode s = 14 ∨ 16 ≤ (fetchedOpcode s).toNat) :
    raisedBy s = some (.undefinedOpcode (fetchedOpcode s)) := by
  rcases hoc with h14 | hge
  · obtain ⟨m, a, hd⟩ := decode_eq_unused0E_iff (arg := s.codeArg.read s.pc.toNat) |>.2 ⟨hparity, h14⟩
    rw [h14]
    exact raisedBy_of_handle_error hrun (fetchInstr_of_decode_ok hpc hd) rfl
  · have hd := decode_eq_noHandler_iff (arg := s.codeArg.read s.pc.toNat) |>.2 ⟨hparity, rfl, hge⟩
    exact raisedBy_of_fetchInstr_error hrun (fetchInstr_of_decode_error hpc hd)

/-- A condition of the fetch stage is a range fault of `pc`, or that of a word refused at a valid `pc`. -/
theorem fetchInstr_error_cases {c : Condition} (h : fetchInstr s = .error c) :
    (¬ ValidAddress s.pc ∧ c = .outOfRangeAddress s.pc) ∨
    (ValidAddress s.pc ∧
      ∃ r, decode (s.codeOp.read s.pc.toNat) (s.codeArg.read s.pc.toNat) = .error r ∧ c = rejectCondition r) := by
  by_cases hpc : ValidAddress s.pc
  · refine .inr ⟨hpc, ?_⟩
    cases hd : decode (s.codeOp.read s.pc.toNat) (s.codeArg.read s.pc.toNat) with
    | ok i => cases (fetchInstr_of_decode_ok hpc hd).symm.trans h
    | error r =>
      cases (fetchInstr_of_decode_error hpc hd).symm.trans h
      exact ⟨r, rfl, rfl⟩
  · cases (fetchInstr_invalid hpc).symm.trans h
    exact .inl ⟨hpc, rfl⟩

theorem undefinedOpcode_of_raisedBy (h : raisedBy s = some (.undefinedOpcode oc)) :
    ValidAddress s.pc ∧ checkParity (s.codeOp.read s.pc.toNat) = true ∧ oc = fetchedOpcode s ∧
      (oc = 14 ∨ 16 ≤ oc.toNat) := by
  rcases raisedBy_eq_some h with hf | ⟨i, hf, hh⟩
  · rcases fetchInstr_error_cases hf with ⟨_, hc⟩ | ⟨hpc, r, hd, hc⟩
    · cases hc
    · cases r with
      | corrupted => cases hc
      | noHandler oc' =>
        cases hc
        obtain ⟨hparity, hoc, hge⟩ := decode_eq_noHandler_iff.1 hd
        exact ⟨hpc, hparity, hoc, .inr hge⟩
  · obtain ⟨hpc, hd⟩ := fetchInstr_ok hf
    cases handle_raises hh with
    | unusedOpcode m arg hi =>
      subst hi
      obtain ⟨hparity, hoc⟩ := decode_eq_unused0E_iff.1 ⟨m, arg, hd⟩
      exact ⟨hpc, hparity, hoc.symm, .inl rfl⟩

/-- The opcode read off the byte, as the statements write it. -/
theorem fetchedOpcode_undefined (h : (s.codeOp.read s.pc.toNat).toNat / 8 = 14 ∨
    16 ≤ (s.codeOp.read s.pc.toNat).toNat / 8) : fetchedOpcode s = 14 ∨ 16 ≤ (fetchedOpcode s).toNat := by
  rw [← fetchedOpcode_toNat] at h
  exact h.imp BitVec.eq_of_toNat_eq id

end

theorem Mnemonic.instr_ne_unused0E (n : Mnemonic) (m m' : Mode) (a a' : Word) : n.instr m a ≠ .unused0E m' a' := by
  cases n <;> nofun

/-- Settles O32: the opcode of the fetched word decides, and no mnemonic stands for opcode 0xE. -/
theorem undefinedOpcodesRaise : Obligations.UndefinedOpcodesRaise := by
  refine ⟨decode_bytes (mk := .unused0E) (fun _ _ => ⟨rfl, rfl, rfl⟩) (by decide),
    fun m arg s => exec_of_handle_error rfl, fun s hrun hpc hparity hoc => ?_, fun s oc h => ?_,
    fun n a w h m arg hd => ?_⟩
  · exact step_of_raisedBy (raisedBy_of_undefinedOpcode hrun hpc hparity (fetchedOpcode_undefined hoc))
  · obtain ⟨hpc, hparity, rfl, hoc⟩ := undefinedOpcode_of_raisedBy h
    exact ⟨hpc, hparity, fetchedOpcode_toNat s, hoc⟩
  · obtain ⟨m', arg', rfl⟩ := assembleLine_some h
    rw [decode_encode] at hd
    exact n.instr_ne_unused0E _ _ _ _ (Except.ok.inj hd)

/-! ### The order of the checks -/

/-- DIV indirect makes both accesses and then tests the divisor (43_arithmetic.md R128). -/
theorem handle_div_indirect (arg : Word) (s : State) :
    (¬ ValidAddress arg → handle (.div .indirect arg) s = .error (.outOfRangeAddress arg)) ∧
    (ValidAddress arg → ¬ ValidAddress (s.mem.read arg.toNat) →
      handle (.div .indirect arg) s = .error (.outOfRangeAddress (s.mem.read arg.toNat))) ∧
    (ValidAddress arg → ValidAddress (s.mem.read arg.toNat) → s.mem.read (s.mem.read arg.toNat).toNat = 0 →
      handle (.div .indirect arg) s = .error (.divideByZero .indirect)) ∧
    (ValidAddress arg → ValidAddress (s.mem.read arg.toNat) → s.mem.read (s.mem.read arg.toNat).toNat ≠ 0 →
      ∃ t, handle (.div .indirect arg) s = .ok t) :=
  ⟨fun h => handle_div_of_operandOutOfRange (f := .indirect) (.inl ⟨h, rfl⟩),
    fun h hptr => handle_div_of_operandOutOfRange (f := .indirect) (.inr ⟨h, hptr, rfl⟩),
    fun h hptr hz => handle_div_of_operandIs_zero (f := .indirect) ⟨h, hptr, hz.symm⟩,
    fun h hptr hz => ⟨_, handle_div_of_operandIs_ne_zero (f := .indirect) ⟨h, hptr, rfl⟩ hz⟩⟩

/-- Settles O38: each clause is the check it names, reached because the ones before it pass. -/
theorem priorityOfConditions : Obligations.PriorityOfConditions := by
  refine ⟨fun s hrun => ⟨fun hpc => ?_, fun hpc hparity => ?_, fun hpc hparity hoc => ?_, fun i hf hoc hwf => ?_⟩,
    fun s arg hrun hf => ?_⟩
  · exact raisedBy_of_fetchInstr_error hrun (fetchInstr_invalid hpc)
  · rw [raisedBy_corrupted_iff hrun, fetchInstr_corrupted_iff hpc, decode_eq_corrupted_iff]
    exact hparity
  · exact raisedBy_of_undefinedOpcode hrun hpc hparity (fetchedOpcode_undefined hoc)
  · exact raisedBy_of_handle_error hrun hf (handle_of_illegalMode hoc (i.wellFormed_eq_false_iff.1 hwf))
  · obtain ⟨hfirst, hsecond, hzero, hok⟩ := handle_div_indirect arg s
    split
    · next harg => exact raisedBy_of_handle_error hrun hf (hfirst harg)
    · next harg =>
      have harg := not_not.1 harg
      split
      · next hptr => exact raisedBy_of_handle_error hrun hf (hsecond harg hptr)
      · next hptr =>
        have hptr := not_not.1 hptr
        split
        · next hz => exact raisedBy_of_handle_error hrun hf (hzero harg hptr hz)
        · next hz =>
          obtain ⟨t, ht⟩ := hok harg hptr hz
          exact raisedBy_of_handle_ok hrun hf ht

/-- Settles O34: the two tables of 60_exceptions.md R170 and R171, row by row. -/
theorem conditionCodesAndRecords : Obligations.ConditionCodesAndRecords :=
  fun _ _ _ _ _ => ⟨rfl, rfl, rfl, rfl, rfl, rfl, rfl, rfl, rfl, rfl⟩

/-! ### A word placed where the next cycle fetches -/

theorem validAddress_zero : ValidAddress 0 :=
  ⟨by decide, by have := Config.le_memSize; have : (0 : Word).toInt = 0 := rfl; omega⟩

theorem decode_of_decodeTableWord {nbits w : Nat} {i : Instr} (h : decodeTableWord nbits w = some i) :
    decode (tableWord nbits w).1 (tableWord nbits w).2 = .ok i := by
  unfold decodeTableWord at h
  split at h <;> cases h
  assumption

theorem withFetchWord_pc_valid (s : State) (nbits w : Nat) : ValidAddress (s.withFetchWord nbits w).pc := by
  by_cases hpc : inRange s.pc = true
  · have : (s.withFetchWord nbits w).pc = s.pc := if_pos hpc
    exact this ▸ (inRange_iff s.pc).1 hpc
  · have : (s.withFetchWord nbits w).pc = 0 := if_neg hpc
    exact this ▸ validAddress_zero

/-- Settles O15: the placed word is what the fetch reads at the placed `pc`, which is valid. -/
theorem placedWordRunsNext : Obligations.PlacedWordRunsNext := by
  intro s nbits w i hop harg hw
  have hreadOp := Memory.read_write_same (s.withFetchWord nbits w).pc.toNat (tableWord nbits w).1 hop
  have hreadArg := Memory.read_write_same (s.withFetchWord nbits w).pc.toNat (tableWord nbits w).2 harg
  have hd : decode ((s.withFetchWord nbits w).codeOp.read (s.withFetchWord nbits w).pc.toNat)
      ((s.withFetchWord nbits w).codeArg.read (s.withFetchWord nbits w).pc.toNat) = .ok i :=
    (congrArg₂ decode hreadOp hreadArg).trans (decode_of_decodeTableWord hw)
  have hf := fetchInstr_of_decode_ok (withFetchWord_pc_valid s nbits w) hd
  obtain ⟨t, ht⟩ := everyCycleAnswersNext.2 i (s.withFetchWord nbits w)
  have hrun : (s.withFetchWord nbits w).running = true := rfl
  exact ⟨t, ht, by simp only [step, hrun, if_true, hf, ht]⟩

end Machine

end Sys2Proof

/-! Proofs about wrapped arithmetic (spec/43_arithmetic.md section 2, 10_state.md R24): where `wrap` is exact, and what
that gives for DIV and for `pc`. -/

namespace Sys2Proof

/-! ### Where wrapping is exact -/

theorem wrap_exact {a : Int} (hlo : -(2 ^ (W - 1) : Int) ≤ a) (hhi : a < 2 ^ (W - 1)) : (wrap a).toInt = a :=
  BitVec.toInt_ofInt_eq_self (by decide) hlo hhi

theorem wrap_exact_iff (a : Int) : (wrap a).toInt = a ↔ -(2 ^ (W - 1) : Int) ≤ a ∧ a < 2 ^ (W - 1) := by
  refine ⟨fun h => ?_, fun ⟨hlo, hhi⟩ => wrap_exact hlo hhi⟩
  rw [← h]
  exact ⟨BitVec.le_toInt (wrap a), BitVec.toInt_lt⟩

/-- Wrapping before an addition or after it is the same. -/
theorem wrap_wrap_add (a b : Int) : wrap ((wrap a).toInt + b) = wrap (a + b) := by
  rw [wrap, BitVec.ofInt_add, BitVec.ofInt_toInt, wrap, ← BitVec.ofInt_add, wrap]

theorem wrap_add_wrap (a b : Int) : wrap (a + (wrap b).toInt) = wrap (a + b) := by
  rw [Int.add_comm, wrap_wrap_add, Int.add_comm]

/-- A sum one modulus too large wraps to the word below 0. -/
theorem wrap_sub_modulus (a : Int) : wrap (a - 2 ^ W) = wrap a := by
  rw [Int.sub_eq_add_neg, ← wrap_add_wrap]
  exact congrArg wrap (Int.add_zero a)

/-! ### The truncated quotient -/

section
variable {a b : Int}

/-- The quotient of words fits but for the most negative word by -1: its magnitude is at most the dividend's. -/
theorem tdiv_fits (hlo : -2147483648 ≤ a) (hhi : a < 2147483648) (h : ¬ (a = -2147483648 ∧ b = -1)) :
    -2147483648 ≤ Int.tdiv a b ∧ Int.tdiv a b < 2147483648 := by
  have hle := Int.natAbs_tdiv_le_natAbs a b
  refine ⟨by omega, ?_⟩
  by_contra htoo
  have hmin : a = -2147483648 := by omega
  have hmag : a.natAbs / b.natAbs = a.natAbs := by
    have := Int.natAbs_tdiv a b
    have hdiv : a.natAbs.div b.natAbs = a.natAbs / b.natAbs := rfl
    omega
  have hb : b.natAbs = 1 := by
    rcases Nat.div_eq_self.1 hmag with h0 | h1
    · omega
    · exact h1
  rcases Int.natAbs_eq b with h1 | h1
  · rw [h1, hb, Int.natCast_one, Int.tdiv_one] at htoo
    omega
  · exact h ⟨hmin, by omega⟩

theorem sign_agree_of_tdiv_pos (h : 0 < Int.tdiv a b) : 0 < a ↔ 0 < b := by
  constructor
  · intro ha
    by_contra hb
    have := Int.tdiv_nonpos_of_nonneg_of_nonpos (le_of_lt ha) (not_lt.1 hb)
    omega
  · intro hb
    by_contra ha
    have := Int.tdiv_nonneg (by omega : 0 ≤ -a) (le_of_lt hb)
    rw [Int.neg_tdiv] at this
    omega

theorem sign_differ_of_tdiv_neg (h : Int.tdiv a b < 0) : ¬ (0 < a ↔ 0 < b) := by
  intro hsign
  by_cases ha : 0 < a
  · have := Int.tdiv_nonneg (le_of_lt ha) (le_of_lt (hsign.1 ha))
    omega
  · have := Int.tdiv_nonneg_of_nonpos_of_nonpos (not_lt.1 ha) (not_lt.1 (mt hsign.2 ha))
    omega

end

namespace Machine

/-- Settles O53: ADD and SUB are addition and subtraction of words, and `wrap` is a ring map from the integers. -/
theorem wrapLaws : Obligations.WrapLaws := by
  refine ⟨fun s v => ?_, fun a b c => ?_, fun a b => ?_, wrap_exact_iff⟩
  · obtain ⟨_, hadd⟩ := addAddsOperand v
    obtain ⟨_, hsub⟩ := subSubtractsOperand v
    obtain ⟨hadd, _, _⟩ := hadd s .immediate
    refine ⟨_, _, hadd v rfl, (hsub _ .immediate).1 v rfl, ?_⟩
    exact BitVec.add_sub_cancel s.acc v
  · rw [wrap_wrap_add, wrap_add_wrap, Int.add_assoc]
  · rw [wrap_add_wrap, Int.sub_eq_add_neg]

/-- Settles O54: `wrap` is exact on every quotient but one, and that one wraps to the dividend. -/
theorem divTruncatesTowardZero : Obligations.DivTruncatesTowardZero := by
  intro s v hv
  refine ⟨_, exec_div_of_operandIs (f := .immediate) rfl hv, fun hfits => ?_, fun ⟨hacc, hone⟩ => ?_⟩
  · obtain ⟨hlo, hhi⟩ := tdiv_fits (BitVec.le_toInt s.acc) BitVec.toInt_lt hfits
    have hexact : (wrap (Int.tdiv s.acc.toInt v.toInt)).toInt = Int.tdiv s.acc.toInt v.toInt := wrap_exact hlo hhi
    simp only [hexact]
    exact ⟨Int.natAbs_tdiv _ _, sign_agree_of_tdiv_pos, sign_differ_of_tdiv_neg⟩
  · calc wrap (Int.tdiv s.acc.toInt v.toInt) = wrap s.acc.toInt := by rw [hone, hacc]; decide
      _ = s.acc := wrap_toInt s.acc

/-- Settles O55: a sum beyond the signed range wraps below 0, so it is no valid index, as MEM_SIZE is at most
2^(W-1). -/
theorem wrappedPcIsExactWhenValid : Obligations.WrappedPcIsExactWhenValid := by
  intro p d hp hsum
  have hplo := hp.1
  have hphi : p.toInt < 2147483648 := BitVec.toInt_lt
  have hdlo : -2147483648 ≤ d.toInt := BitVec.le_toInt d
  have hdhi : d.toInt < 2147483648 := BitVec.toInt_lt
  have hmodulus : (2 ^ W : Int) = 4294967296 := rfl
  have hhalf : (2 ^ (W - 1) : Int) = 2147483648 := rfl
  by_cases hfits : p.toInt + d.toInt < 2 ^ (W - 1)
  · exact wrap_exact (by omega) hfits
  · have hneg : (wrap (p.toInt + d.toInt - 2 ^ W)).toInt = p.toInt + d.toInt - 2 ^ W :=
      wrap_exact (by omega) (by omega)
    rw [wrap_sub_modulus] at hneg
    have hnonneg := hsum.1
    omega

end Machine

end Sys2Proof

/-! Proofs about the host (spec/70_reset_and_hazards.md sections 1 to 3): each operation by its range and by whether a
top-level Step is in progress, the invariant under every move, and a boot. -/

namespace Sys2Proof.Machine

/-! ### The laws of each operation -/

section
variable {i : Int} {op : Byte} {arg v : Word} {s t : State}

/-- A host index in range is the signed value and the unsigned value of its word. -/
theorem hostIndex_valid (h : 0 ≤ i ∧ i < (Config.memSize : Int)) :
    ValidAddress (wrap i) ∧ (wrap i).toInt = i ∧ (wrap i).toNat = i.toNat := by
  have hsize : Config.memSize ≤ 2147483648 := Config.memSize_le
  have hint : (wrap i).toInt = i := wrap_exact (by norm_num; omega) (by norm_num; omega)
  have hnat : (wrap i).toNat = i.toNat := by
    have := toInt_eq_toNat_of_nonneg (a := wrap i) (by omega)
    omega
  exact ⟨⟨by omega, by omega⟩, hint, hnat⟩

theorem hostInRange_eq_false (h : ¬ (0 ≤ i ∧ i < (Config.memSize : Int))) : hostInRange i = false := by
  rw [← hostInRange_iff] at h
  simpa using h

theorem setCode_inRange (hs : s.loopStack = []) (h : 0 ≤ i ∧ i < (Config.memSize : Int)) :
    setCode i op arg s =
      .ok { s with codeOp := s.codeOp.write i.toNat op, codeArg := s.codeArg.write i.toNat arg } := by
  rw [setCode, offered_between hs, if_pos ((hostInRange_iff i).2 h)]

theorem setCode_outOfRange (hs : s.loopStack = []) (h : ¬ (0 ≤ i ∧ i < (Config.memSize : Int))) :
    setCode i op arg s = .error (.outOfRangeAddress i) := by
  rw [setCode, offered_between hs, hostInRange_eq_false h]
  rfl

theorem setData_inRange (hs : s.loopStack = []) (h : 0 ≤ i ∧ i < (Config.memSize : Int)) :
    setData i v s = .ok (s.storeWord (wrap i) v) := by
  rw [setData, offered_between hs, if_pos ((hostInRange_iff i).2 h)]

theorem setData_outOfRange (hs : s.loopStack = []) (h : ¬ (0 ≤ i ∧ i < (Config.memSize : Int))) :
    setData i v s = .error (.outOfRangeAddress i) := by
  rw [setData, offered_between hs, hostInRange_eq_false h]
  rfl

theorem getData_inRange (hs : s.loopStack = []) (h : 0 ≤ i ∧ i < (Config.memSize : Int)) :
    getData i s = .ok (s.mem.read i.toNat) := by
  rw [getData, offered_between hs, if_pos ((hostInRange_iff i).2 h)]

theorem getData_outOfRange (hs : s.loopStack = []) (h : ¬ (0 ≤ i ∧ i < (Config.memSize : Int))) :
    getData i s = .error (.outOfRangeAddress i) := by
  rw [getData, offered_between hs, hostInRange_eq_false h]
  rfl

/-- The effect of `set_data` on the cell the host named, in terms of the host's index. -/
theorem storeWord_hostIndex (h : 0 ≤ i ∧ i < (Config.memSize : Int)) (hwf : s.mem.wf = true) :
    (s.storeWord (wrap i) v).mem.read i.toNat = v ∧
      ∀ b, b ≠ i.toNat → (s.storeWord (wrap i) v).mem.read b = s.mem.read b := by
  obtain ⟨_, _, hnat⟩ := hostIndex_valid h
  rw [← hnat]
  exact ⟨State.storeWord_read_same _ v hwf, fun b hb => State.storeWord_read_other s _ v hb⟩

end

/-- Settles O56: what `clear` does, offered between top-level Steps. -/
theorem clearKeepsOnlyRunning : Obligations.ClearKeepsOnlyRunning := by
  intro s hs
  rw [hostMove, offered_between hs, State.clear_eq]

/-- Settles O58: in range each write follows the laws of its store, out of range the check refuses. -/
theorem hostAccessesOneCell : Obligations.HostAccessesOneCell := by
  intro s i v op hinv hs
  refine ⟨fun h => ⟨?_, ?_⟩, fun h => ⟨setData_outOfRange hs h, setCode_outOfRange hs h, getData_outOfRange hs h⟩⟩
  · obtain ⟨_, hint, _⟩ := hostIndex_valid h
    obtain ⟨hsame, hother⟩ := storeWord_hostIndex (v := v) h hinv.memWf
    refine ⟨_, setData_inRange hs h, hsame, ?_, hint, hother, rfl⟩
    rw [getData_inRange (s := s.storeWord (wrap i) v) hs h, hsame]
  · exact ⟨_, setCode_inRange hs h, Memory.read_write_same _ _ hinv.codeOpWf, Memory.read_write_same _ _ hinv.codeArgWf,
      fun b hb => ⟨Memory.read_write_other _ _ hb, Memory.read_write_other _ _ hb⟩, rfl⟩

/-! ### The laws of a sequence of operations -/

theorem hostBind_ok {α β : Type} (a : α) (f : α → Except HostRefusal β) :
    ((Except.ok a : Except HostRefusal α) >>= f) = f a := rfl

theorem hostBind_error {α β : Type} (r : HostRefusal) (f : α → Except HostRefusal β) :
    ((Except.error r : Except HostRefusal α) >>= f) = .error r := rfl

theorem hostBind_eq_ok {α β : Type} {x : Except HostRefusal α} {f : α → Except HostRefusal β} {b : β}
    (h : x >>= f = .ok b) : ∃ a, x = .ok a ∧ f a = .ok b := by
  cases x with
  | ok a => exact ⟨a, rfl, h⟩
  | error r => cases h

theorem hostMove_during {s : State} (hs : s.loopStack ≠ []) {op : HostOp} (hop : op ≠ .reset) :
    hostMove op s = .error .stepInProgress := by
  cases op with
  | reset => exact absurd rfl hop
  | clear | setCode _ _ _ | setData _ _ | setRunning _ => exact offered_during hs _

/-- Settles O59: every operation but reset goes through `offered`, and a boot begins with one. -/
theorem noHostMoveDuringStep : Obligations.NoHostMoveDuringStep := by
  refine ⟨fun s hs => ⟨fun op => hostMove_during hs, fun i => offered_during hs _, offered_during hs _,
    offered_during hs _, offered_during hs _, offered_during hs _, offered_during hs _, fun k => offered_during hs _,
    fun code data => ?_⟩, fun s hs => ⟨offered_between hs _, offered_between hs _, offered_between hs _,
    offered_between hs _, offered_between hs _, fun k => offered_between hs _⟩⟩
  rw [boot, hostMove_during hs (op := .clear) nofun, hostBind_error]

/-! ### The invariant under host moves -/

section
variable {s t : State}

theorem StateInv.reset : StateInv State.reset := invAtReset

theorem StateInv.setRunning (h : StateInv s) (hs : s.loopStack = []) (b : Bool) : StateInv (s.setRunning b) :=
  { h with haltedNoLoop := fun _ => hs }

/-- `clear` needs nothing of the state it is made in. -/
theorem StateInv.clear (s : State) : StateInv s.clear := StateInv.reset.setRunning rfl s.running

theorem StateInv.setCode {i : Int} {op : Byte} {arg : Word} (h : StateInv s) (ht : setCode i op arg s = .ok t) :
    StateInv t := by
  obtain ⟨_, hi, rfl⟩ := setCode_ok ht
  have hlt : i.toNat < Config.memSize := by omega
  exact
    { h with
      codeOpWf := Memory.write_wf _ _ h.codeOpWf
      codeOpBounded := Memory.write_bounded _ hlt h.codeOpBounded
      codeArgWf := Memory.write_wf _ _ h.codeArgWf
      codeArgBounded := Memory.write_bounded _ hlt h.codeArgBounded }

theorem StateInv.setData {i : Int} {v : Word} (h : StateInv s) (ht : setData i v s = .ok t) : StateInv t := by
  obtain ⟨_, hi, rfl⟩ := setData_ok ht
  obtain ⟨hvalid, _, _⟩ := hostIndex_valid hi
  exact h.storeWord v hvalid

theorem StateInv.hostMove {op : HostOp} (h : StateInv s) (ht : hostMove op s = .ok t) : StateInv t := by
  cases op with
  | reset =>
    cases ht
    exact .reset
  | clear =>
    obtain ⟨_, ⟨⟩⟩ := offered_ok ht
    exact .clear s
  | setCode i b a => exact h.setCode ht
  | setData i v => exact h.setData ht
  | setRunning b =>
    obtain ⟨hs, ⟨⟩⟩ := offered_ok ht
    exact h.setRunning hs b

theorem StateInv.loadCode {k : Nat} {l : List (Byte × Word)} (h : StateInv s) (ht : loadCode k l s = .ok t) :
    StateInv t := by
  induction l generalizing k s with
  | nil =>
    cases ht
    exact h
  | cons w l ih =>
    obtain ⟨u, hu, ht⟩ := hostBind_eq_ok ht
    exact ih (h.setCode hu) ht

theorem StateInv.loadData {l : List (Int × Word)} (h : StateInv s) (ht : loadData l s = .ok t) : StateInv t := by
  induction l generalizing s with
  | nil =>
    cases ht
    exact h
  | cons w l ih =>
    obtain ⟨u, hu, ht⟩ := hostBind_eq_ok ht
    exact ih (h.setData hu) ht

/-- A boot that succeeds begins with `clear`, so it needs nothing of the state before. -/
theorem StateInv.boot {code : List (Byte × Word)} {data : List (Int × Word)} (ht : boot code data s = .ok t) :
    StateInv t := by
  obtain ⟨r, hr, hrest⟩ := hostBind_eq_ok ht
  obtain ⟨u, hu, hrest⟩ := hostBind_eq_ok hrest
  obtain ⟨v, hv, hlast⟩ := hostBind_eq_ok hrest
  obtain ⟨_, ⟨⟩⟩ := offered_ok hr
  exact (((StateInv.clear s).loadCode hu).loadData hv).hostMove hlast

end

/-- Settles O48: each move by its own lemma, a boot by induction on what it loads. -/
theorem invKeptByHostMoves : Obligations.InvKeptByHostMoves :=
  ⟨fun _ _ _ h => h.hostMove, fun _ _ _ _ => StateInv.boot⟩

/-! ### Booting a program that fits -/

/-- Entry `k` of the Code Store (10_state.md R31). -/
def State.codeEntry (s : State) (k : Nat) : Byte × Word := (s.codeOp.read k, s.codeArg.read k)

/-- From `k` on the Code Store of `t` holds the lines `l`, and elsewhere what that of `s` holds; no other field
differs. -/
structure LoadedFrom (k : Nat) (l : List (Byte × Word)) (s t : State) : Prop where
  frame  : t = { s with codeOp := t.codeOp, codeArg := t.codeArg }
  before : ∀ j < k, t.codeEntry j = s.codeEntry j
  lines  : ∀ j, t.codeEntry (k + j) = l[j]?.getD (s.codeEntry (k + j))

/-- Lines that fit are all loaded (30_encoding.md R79, 70_reset_and_hazards.md R206). -/
theorem loadCode_fits {k : Nat} {l : List (Byte × Word)} {s : State} (h : StateInv s) (hs : s.loopStack = [])
    (hfit : k + l.length ≤ Config.memSize) : ∃ t, loadCode k l s = .ok t ∧ LoadedFrom k l s t := by
  induction l generalizing k s with
  | nil => exact ⟨s, rfl, rfl, fun _ _ => rfl, fun _ => rfl⟩
  | cons w l ih =>
    rw [List.length_cons] at hfit
    obtain ⟨op, a⟩ := w
    have hset := setCode_inRange (i := k) (op := op) (arg := a) hs (by omega)
    obtain ⟨t, ht, hframe, hbefore, hlines⟩ := ih (k := k + 1) (h.setCode hset) hs (by omega)
    refine ⟨t, ?_, hframe, fun j hj => ?_, fun j => ?_⟩
    · rw [loadCode, hset, hostBind_ok, ht]
    · rw [hbefore j (by omega)]
      exact Prod.ext (Memory.read_write_other _ _ (by omega)) (Memory.read_write_other _ _ (by omega))
    · cases j with
      | zero =>
        rw [Nat.add_zero, hbefore k (Nat.lt_succ_self k)]
        exact Prod.ext (Memory.read_write_same _ _ h.codeOpWf) (Memory.read_write_same _ _ h.codeArgWf)
      | succ j =>
        rw [Nat.add_comm j 1, ← Nat.add_assoc, hlines j, Nat.add_comm 1 j, List.getElem?_cons_succ]
        congr 1
        exact Prod.ext (Memory.read_write_other _ _ (by omega)) (Memory.read_write_other _ _ (by omega))

/-- Settles O60: the lines are loaded over the reset contents, which read 0 everywhere. -/
theorem bootLoadsProgram : Obligations.BootLoadsProgram := by
  intro code s hs hfit
  obtain ⟨t, ht, hframe, _, hlines⟩ := loadCode_fits (k := 0) (l := code) (StateInv.clear s) rfl (by omega)
  have hclear : hostMove .clear s = .ok s.clear := offered_between hs _
  have htstack : t.loopStack = [] := by rw [hframe]; rfl
  have hrunning : hostMove (.setRunning true) t = .ok (t.setRunning true) := offered_between htstack _
  refine ⟨t.setRunning true, ?_, ?_, ?_, rfl, ?_, fun k => ?_, fun a => ?_⟩
  · rw [boot, hclear, hostBind_ok, ht, hostBind_ok, loadData, hostBind_ok, hrunning]
  · rw [State.setRunning_pc, hframe]
    rfl
  · rw [State.setRunning_acc, hframe]
    rfl
  · rw [State.setRunning_faultCause, hframe]
    rfl
  · have hentry : t.codeEntry k = code[k]?.getD (0, 0) := by
      have hline := hlines k
      rwa [Nat.zero_add] at hline
    exact ⟨congrArg Prod.fst hentry, congrArg Prod.snd hentry⟩
  · rw [State.setRunning_mem, hframe]
    rfl

end Sys2Proof.Machine
